-- ==== Sys2Proof/Word.lean ====
section
/-! DEFINITION. The fixed widths of the block (00_scope R6, R7), bit strings of any width for the functional layer
(00_scope R9), and the error names a functional call can fail with (00_scope R12). -/

namespace Sys2Proof

/-- A 64-bit block, master key or trace entry (R6: W_BLOCK, W_KEY). -/
abbrev Block := BitVec 64

/-- A 32-bit half-block or round-function result (R6: W_HALF). -/
abbrev Half := BitVec 32

/-- A 48-bit round key, or an expanded half-block (R6: W_RK, W_EXP). -/
abbrev RoundKey := BitVec 48

/-- A 28-bit key half C or D (R6: W_C, W_D). -/
abbrev KeyHalf := BitVec 28

/-- A round number 0 to 15 (R6: N_ROUNDS). -/
abbrev Round := Fin 16

/-- A bit string of any width (R9). Position p of the string is register bit `width - p` of `bits` (R10). -/
structure BitString where
  width : Nat
  bits  : BitVec width
  deriving DecidableEq, Repr

/-- The errors of the functional layer (R12; 60_exceptions R220). -/
inductive DesError where
  /-- a bit string does not have the width its contract fixes -/
  | invalidLength
  /-- the two operands of an XOR differ in width -/
  | lengthMismatch
  /-- a version tag outside the enumeration -/
  | unknownVersion
  deriving DecidableEq, Repr

end Sys2Proof
end

