-- ==== Sys2Proof/Machine/Primitives.lean ====
section
/-! DEFINITION. The bit-vector primitives (41_primitives R100 to R106): the datapath's wiring on fixed widths, and the
functional calls on bit strings of any width with their failures. -/

namespace Sys2Proof.Machine

/-! ### The datapath -/

/-- `s⟨p⟩`, the bit at 1-based position p, register bit `w - p` (00_scope R9, R10). Meant for 1 ≤ p ≤ w. -/
def bitAt {w : Nat} (s : BitVec w) (p : Nat) : Bool :=
  s.getMsbD (p - 1)

/-- The n-bit string whose bit at storage index i (position i + 1) is `f i`. -/
def ofPositions : (n : Nat) → (Nat → Bool) → BitVec n
  | 0, _ => 0#0
  | n + 1, f => (ofPositions n f).concat (f n)

/-- `permute(s, T)`: output position i copies input position T[i] (41_primitives R101). -/
def permute {w n : Nat} (s : BitVec w) (T : Vector Nat n) : BitVec n :=
  ofPositions n fun i => bitAt s (T.getD i 0)

/-- `hi32`, positions 1 to 32 of a 64-bit string (41_primitives R104). -/
def hi32 (s : Block) : Half := s.extractLsb' 32 32

/-- `lo32`, positions 33 to 64 of a 64-bit string (41_primitives R104). -/
def lo32 (s : Block) : Half := s.extractLsb' 0 32

/-- `hi28`, positions 1 to 28 of a 56-bit string (41_primitives R104). -/
def hi28 (s : BitVec 56) : KeyHalf := s.extractLsb' 28 28

/-- `lo28`, positions 29 to 56 of a 56-bit string (41_primitives R104). -/
def lo28 (s : BitVec 56) : KeyHalf := s.extractLsb' 0 28

/-- `rotate_left(s, n)` as wired, for n below the width: the first n positions move to the end (41_primitives R103). -/
def rotateBits {w : Nat} (s : BitVec w) (n : Nat) : BitVec w :=
  (s <<< n) ||| (s >>> (w - n))

/-- Byte j (0 to 7) of a block split outside the hardware: positions 8j+1 to 8j+8 (20_memory R44). -/
def blockByte (s : Block) (j : Fin 8) : BitVec 8 :=
  s.extractLsb' (56 - 8 * j.val) 8

/-! ### The functional calls -/

/-- `xor(a, b)`, failing `LengthMismatch` on unequal widths (41_primitives R100). -/
def callXor (a b : BitString) : Except DesError BitString :=
  if a.width = b.width then .ok ⟨a.width, a.bits ^^^ b.bits.setWidth a.width⟩ else .error .lengthMismatch

/-- What the precondition of `permute` asks of a table: a straight permutation lists every position of an input of exactly
its own length once; any other table only needs the input to reach its greatest index (41_primitives R101). -/
def isStraight {n : Nat} (T : Vector Nat n) : Bool :=
  (List.range n).all fun i => T.toList.contains (i + 1)

/-- The input's width meets `permute`'s precondition, and every entry is a 1-based position. -/
def fitsTable {n : Nat} (width : Nat) (T : Vector Nat n) : Bool :=
  (if isStraight T then width == n else T.toList.all fun p => p ≤ width) && T.toList.all fun p => 1 ≤ p

/-- `permute(input, T)`, failing `InvalidLength` when the precondition is not met (41_primitives R101). -/
def callPermute {n : Nat} (s : BitString) (T : Vector Nat n) : Except DesError BitString :=
  if fitsTable s.width T then .ok ⟨n, permute s.bits T⟩ else .error .invalidLength

/-- `rotate_left(s, n)`; a call with n outside 0 ≤ n < |s| is refused: `none` (41_primitives R103). -/
def callRotateLeft (s : BitString) (n : Nat) : Option BitString :=
  if n < s.width then some ⟨s.width, rotateBits s.bits n⟩ else none

/-- The lowercase hexadecimal digit of a 4-bit value. -/
def hexDigit (v : Nat) : Char :=
  ['0', '1', '2', '3', '4', '5', '6', '7', '8', '9', 'a', 'b', 'c', 'd', 'e', 'f'].getD v '0'

/-- The integer of positions 4j+1 to 4j+4 (41_primitives R106). -/
def hexValue (s : BitString) (j : Nat) : Nat :=
  8 * (bitAt s.bits (4 * j + 1)).toNat + 4 * (bitAt s.bits (4 * j + 2)).toNat
    + 2 * (bitAt s.bits (4 * j + 3)).toNat + (bitAt s.bits (4 * j + 4)).toNat

/-- `to_hex(bits)` as its digits in position order, failing `InvalidLength` unless the width is a multiple of 4
(41_primitives R106). -/
def callToHex (s : BitString) : Except DesError (List Char) :=
  if s.width % 4 = 0 then .ok ((List.range (s.width / 4)).map fun j => hexDigit (hexValue s j))
  else .error .invalidLength

end Sys2Proof.Machine
end

