-- ==== Sys2Proof/Syntax.lean ====
section
/-! DEFINITION. The instructions: one constructor per row of spec/opcode_table.json, and the names they are built of
(30_encoding R61, R63, R67; 10_state R22). -/

namespace Sys2Proof

/-- The three altered versions of the round function, tags 1, 2 and 3 (30_encoding R63). -/
inductive AlteredVersion where
  | v1 | v2 | v3
  deriving DecidableEq, Repr

/-- CipherVersion (00_scope R14): canonical DES, tag 0, or one of the three altered versions. -/
inductive CipherVersion where
  | canonical
  | altered (a : AlteredVersion)
  deriving DecidableEq, Repr

/-- The four legal command opcodes (30_encoding R61). -/
inductive CmdOp where
  | enc | dec | keygen | feval
  deriving DecidableEq, Repr

/-- What a 6-bit register index names (10_state R22). -/
inductive Reg where
  | cmd | status | din | key | half | rkey | dout | fout
  /-- RK[i], index 0x10 + i -/
  | rk (i : Round)
  /-- TRACE[i], index 0x20 + i -/
  | trace (i : Round)
  /-- an index of 0x08 to 0x0F or 0x30 to 0x3F (20_memory R44) -/
  | unmapped (index : BitVec 6)
  deriving DecidableEq, Repr

/-- One cycle of the host: a command word written to CMD, or a host access. -/
inductive Instr where
  /-- ENC: word 0x00V1 written to CMD (45_feistel_engine R188) -/
  | enc (ver : BitVec 4)
  /-- DEC: word 0x00V2 written to CMD (45_feistel_engine R189) -/
  | dec (ver : BitVec 4)
  /-- KEYGEN: word 0x00V3 written to CMD, V ignored (43_key_schedule R145) -/
  | keygen (ver : BitVec 4)
  /-- FEVAL: word 0x00V4 written to CMD (44_round_function R168) -/
  | feval (ver : BitVec 4)
  /-- WR, descriptor 10aaaaaa with `host_wdata` and `host_wlen` (46_host_access R200) -/
  | wr (reg : Reg) (data : BitVec 64) (len : BitVec 8)
  /-- RD, descriptor 01aaaaaa (46_host_access R201) -/
  | rd (reg : Reg)
  /-- WR and RD of one index in one cycle, descriptor 11aaaaaa (46_host_access R204) -/
  | wrRd (reg : Reg) (data : BitVec 64) (len : BitVec 8)
  /-- no access, descriptor 00aaaaaa; the index is ignored (46_host_access R205) -/
  | nop (index : BitVec 6)
  deriving DecidableEq, Repr

end Sys2Proof
end

