-- ==== Sys2Proof/Machine/State.lean ====
section
/-! DEFINITION. The machine's state as plain data, its state after reset, and the reasons a step could stop (10_state). -/

namespace Sys2Proof.Machine

/-- The sequencer's phase (10_state R32). -/
inductive Phase where
  | idle | ks | rnd
  deriving DecidableEq, Repr

/-- OPL, the latched opcode of a running command (10_state R32). FEVAL is never latched. -/
inductive RunOp where
  | enc | dec | keygen
  deriving DecidableEq, Repr

/-- An operand register of width `w`: the data field and the length tag LEN (10_state R28). -/
structure OperandReg (w : Nat) where
  data : BitVec w
  len  : BitVec 8
  deriving DecidableEq, Repr

/-- The input ports during one cycle (10_state R21). -/
structure HostCycle where
  /-- `rst`, synchronous reset, active high -/
  rst   : Bool
  /-- `host_wr` -/
  wr    : Bool
  /-- `host_rd` -/
  rd    : Bool
  /-- `host_addr` -/
  addr  : BitVec 6
  /-- `host_wdata` -/
  wdata : BitVec 64
  /-- `host_wlen` -/
  wlen  : BitVec 8
  deriving DecidableEq, Repr

/-- What the host does next: drive the ports for one cycle, or the pseudo-instruction `wait` (30_encoding R69). Log 1. -/
inductive HostLine where
  | drive (p : HostCycle)
  | wait
  deriving DecidableEq, Repr

/-- Everything the spec gives the machine, and at the end what the model adds. A result register is `none` while it holds no
value (10_state R36). -/
structure State where
  /-- CMD (R25) -/
  cmd    : BitVec 16
  /-- STATUS (R26) -/
  status : BitVec 16
  /-- DIN (R28) -/
  din    : OperandReg 64
  /-- KEY (R28) -/
  key    : OperandReg 64
  /-- HALF (R28) -/
  half   : OperandReg 32
  /-- RKEY (R28) -/
  rkey   : OperandReg 48
  /-- DOUT (R29, R36) -/
  dout   : Option Block
  /-- FOUT (R29, R36) -/
  fout   : Option Half
  /-- RK[0..15] (R30, R36) -/
  rk     : Vector (Option RoundKey) 16
  /-- TRACE[0..15] (R31, R36) -/
  trace  : Vector (Option Block) 16
  /-- PHASE (R32) -/
  phase  : Phase
  /-- IDX (R32) -/
  idx    : Round
  /-- OPL (R32) -/
  opl    : RunOp
  /-- VERL (R32) -/
  verl   : CipherVersion
  /-- C (R33) -/
  c      : KeyHalf
  /-- D (R33) -/
  d      : KeyHalf
  /-- L (R33) -/
  l      : Half
  /-- R (R33) -/
  r      : Half
  /-- the output port `host_rdata` as driven in the last completed cycle (R21) -/
  hostRdata : BitVec 64
  /-- the output port `host_rlen` as driven in the last completed cycle (R21) -/
  hostRlen  : BitVec 8
  /-- the MODEL's own: what the host does in the coming cycles, first line next (log 1) -/
  hostProgram : List HostLine
  /-- the MODEL's own: how many edges have passed, the argument of the free values (log 9) -/
  freeCount : Nat
  /-- the MODEL's own: how many reset edges have passed, an argument of the patterns that registers without a value show
  (log 19) -/
  resetCount : Nat
  deriving DecidableEq, Repr

/-- Why a step stops with a fault. There is no reason: the hardware has no trap, no fault after start and no access that fails
(60_exceptions, opening text, R230, R234; 46_host_access R200, R201), so no meaning raises one. A read of a register that holds
no value runs (log 4); the check that 10_state R36 gives a model stands beside the step, in `strictStep`. -/
inductive Fault where
  deriving DecidableEq, Repr

/-- Why a step is refused. -/
inductive Refusal where
  /-- raised by exec's arm of an instruction that has no meaning yet; no arm does, and a refusal is safe -/
  | notModelled (mnemonic : String)
  deriving DecidableEq, Repr

/-- The state right after reset (10_state R37; 70_reset_and_hazards R250). OPL, VERL, C, D, L and R are unspecified there
(DESIGN CHOICE, unsafe, log 7), and so are the two read ports (DESIGN CHOICE, unsafe, log 8). -/
def State.reset : State where
  cmd := 0x0000
  status := 0x0000
  din := ⟨0, 0⟩
  key := ⟨0, 0⟩
  half := ⟨0, 0⟩
  rkey := ⟨0, 0⟩
  dout := none
  fout := none
  rk := Vector.replicate 16 none
  trace := Vector.replicate 16 none
  phase := .idle
  idx := 0
  opl := .enc
  verl := .canonical
  c := 0
  d := 0
  l := 0
  r := 0
  hostRdata := 0
  hostRlen := 0
  hostProgram := []
  freeCount := 0
  resetCount := 0

end Sys2Proof.Machine
end

