-- ==== Sys2Proof/Machine/Tables.lean ====
section
/-! DEFINITION. The constant tables, written out from 42_tables.md (R120 to R135) and E_INV (44_round_function R165). A
permutation-type table lists, for output position 1 onward, the 1-based input position it copies. -/

namespace Sys2Proof.Machine.Tables

/-- IP, the initial permutation (42_tables R121). -/
def IP : Vector Nat 64 :=
  #v[58, 50, 42, 34, 26, 18, 10, 2]
    ++ #v[60, 52, 44, 36, 28, 20, 12, 4]
    ++ #v[62, 54, 46, 38, 30, 22, 14, 6]
    ++ #v[64, 56, 48, 40, 32, 24, 16, 8]
    ++ #v[57, 49, 41, 33, 25, 17, 9, 1]
    ++ #v[59, 51, 43, 35, 27, 19, 11, 3]
    ++ #v[61, 53, 45, 37, 29, 21, 13, 5]
    ++ #v[63, 55, 47, 39, 31, 23, 15, 7]

/-- FP, the final permutation (42_tables R122). -/
def FP : Vector Nat 64 :=
  #v[40, 8, 48, 16, 56, 24, 64, 32]
    ++ #v[39, 7, 47, 15, 55, 23, 63, 31]
    ++ #v[38, 6, 46, 14, 54, 22, 62, 30]
    ++ #v[37, 5, 45, 13, 53, 21, 61, 29]
    ++ #v[36, 4, 44, 12, 52, 20, 60, 28]
    ++ #v[35, 3, 43, 11, 51, 19, 59, 27]
    ++ #v[34, 2, 42, 10, 50, 18, 58, 26]
    ++ #v[33, 1, 41, 9, 49, 17, 57, 25]

/-- E, the expansion table (42_tables R123). -/
def E : Vector Nat 48 :=
  #v[32, 1, 2, 3, 4, 5]
    ++ #v[4, 5, 6, 7, 8, 9]
    ++ #v[8, 9, 10, 11, 12, 13]
    ++ #v[12, 13, 14, 15, 16, 17]
    ++ #v[16, 17, 18, 19, 20, 21]
    ++ #v[20, 21, 22, 23, 24, 25]
    ++ #v[24, 25, 26, 27, 28, 29]
    ++ #v[28, 29, 30, 31, 32, 1]

/-- P, the round-internal permutation (42_tables R124). -/
def P : Vector Nat 32 :=
  #v[16, 7, 20, 21, 29, 12, 28, 17]
    ++ #v[1, 15, 23, 26, 5, 18, 31, 10]
    ++ #v[2, 8, 24, 14, 32, 27, 3, 9]
    ++ #v[19, 13, 30, 6, 22, 11, 4, 25]

/-- PC1, the parity-drop permutation (42_tables R125). -/
def PC1 : Vector Nat 56 :=
  #v[57, 49, 41, 33, 25, 17, 9]
    ++ #v[1, 58, 50, 42, 34, 26, 18]
    ++ #v[10, 2, 59, 51, 43, 35, 27]
    ++ #v[19, 11, 3, 60, 52, 44, 36]
    ++ #v[63, 55, 47, 39, 31, 23, 15]
    ++ #v[7, 62, 54, 46, 38, 30, 22]
    ++ #v[14, 6, 61, 53, 45, 37, 29]
    ++ #v[21, 13, 5, 28, 20, 12, 4]

/-- PC2, the compression permutation (42_tables R126). -/
def PC2 : Vector Nat 48 :=
  #v[14, 17, 11, 24, 1, 5]
    ++ #v[3, 28, 15, 6, 21, 10]
    ++ #v[23, 19, 12, 4, 26, 8]
    ++ #v[16, 7, 27, 20, 13, 2]
    ++ #v[41, 52, 31, 37, 47, 55]
    ++ #v[30, 40, 51, 45, 33, 48]
    ++ #v[44, 49, 39, 56, 34, 53]
    ++ #v[46, 42, 50, 36, 29, 32]

/-- SHIFTS, the rotation schedule, indexed by round number (42_tables R127). -/
def SHIFTS : Vector Nat 16 :=
  #v[1, 1, 2, 2, 2, 2, 2, 2, 1, 2, 2, 2, 2, 2, 2, 1]

/-- E_INV, the reference left inverse of E: the inner four positions of each 6-bit group (44_round_function R165). -/
def E_INV : Vector Nat 32 :=
  #v[2, 3, 4, 5, 8, 9, 10, 11]
    ++ #v[14, 15, 16, 17, 20, 21, 22, 23]
    ++ #v[26, 27, 28, 29, 32, 33, 34, 35]
    ++ #v[38, 39, 40, 41, 44, 45, 46, 47]

/-- S1, indexed by row and column (42_tables R128). -/
def S1 : Vector (Vector (BitVec 4) 16) 4 := #v[
  #v[14, 4, 13, 1, 2, 15, 11, 8, 3, 10, 6, 12, 5, 9, 0, 7],
  #v[0, 15, 7, 4, 14, 2, 13, 1, 10, 6, 12, 11, 9, 5, 3, 8],
  #v[4, 1, 14, 8, 13, 6, 2, 11, 15, 12, 9, 7, 3, 10, 5, 0],
  #v[15, 12, 8, 2, 4, 9, 1, 7, 5, 11, 3, 14, 10, 0, 6, 13]]

/-- S2, indexed by row and column (42_tables R129). -/
def S2 : Vector (Vector (BitVec 4) 16) 4 := #v[
  #v[15, 1, 8, 14, 6, 11, 3, 4, 9, 7, 2, 13, 12, 0, 5, 10],
  #v[3, 13, 4, 7, 15, 2, 8, 14, 12, 0, 1, 10, 6, 9, 11, 5],
  #v[0, 14, 7, 11, 10, 4, 13, 1, 5, 8, 12, 6, 9, 3, 2, 15],
  #v[13, 8, 10, 1, 3, 15, 4, 2, 11, 6, 7, 12, 0, 5, 14, 9]]

/-- S3, indexed by row and column (42_tables R130). -/
def S3 : Vector (Vector (BitVec 4) 16) 4 := #v[
  #v[10, 0, 9, 14, 6, 3, 15, 5, 1, 13, 12, 7, 11, 4, 2, 8],
  #v[13, 7, 0, 9, 3, 4, 6, 10, 2, 8, 5, 14, 12, 11, 15, 1],
  #v[13, 6, 4, 9, 8, 15, 3, 0, 11, 1, 2, 12, 5, 10, 14, 7],
  #v[1, 10, 13, 0, 6, 9, 8, 7, 4, 15, 14, 3, 11, 5, 2, 12]]

/-- S4, indexed by row and column (42_tables R131). -/
def S4 : Vector (Vector (BitVec 4) 16) 4 := #v[
  #v[7, 13, 14, 3, 0, 6, 9, 10, 1, 2, 8, 5, 11, 12, 4, 15],
  #v[13, 8, 11, 5, 6, 15, 0, 3, 4, 7, 2, 12, 1, 10, 14, 9],
  #v[10, 6, 9, 0, 12, 11, 7, 13, 15, 1, 3, 14, 5, 2, 8, 4],
  #v[3, 15, 0, 6, 10, 1, 13, 8, 9, 4, 5, 11, 12, 7, 2, 14]]

/-- S5, indexed by row and column (42_tables R132). -/
def S5 : Vector (Vector (BitVec 4) 16) 4 := #v[
  #v[2, 12, 4, 1, 7, 10, 11, 6, 8, 5, 3, 15, 13, 0, 14, 9],
  #v[14, 11, 2, 12, 4, 7, 13, 1, 5, 0, 15, 10, 3, 9, 8, 6],
  #v[4, 2, 1, 11, 10, 13, 7, 8, 15, 9, 12, 5, 6, 3, 0, 14],
  #v[11, 8, 12, 7, 1, 14, 2, 13, 6, 15, 0, 9, 10, 4, 5, 3]]

/-- S6, indexed by row and column (42_tables R133). -/
def S6 : Vector (Vector (BitVec 4) 16) 4 := #v[
  #v[12, 1, 10, 15, 9, 2, 6, 8, 0, 13, 3, 4, 14, 7, 5, 11],
  #v[10, 15, 4, 2, 7, 12, 9, 5, 6, 1, 13, 14, 0, 11, 3, 8],
  #v[9, 14, 15, 5, 2, 8, 12, 3, 7, 0, 4, 10, 1, 13, 11, 6],
  #v[4, 3, 2, 12, 9, 5, 15, 10, 11, 14, 1, 7, 6, 0, 8, 13]]

/-- S7, indexed by row and column (42_tables R134). -/
def S7 : Vector (Vector (BitVec 4) 16) 4 := #v[
  #v[4, 11, 2, 14, 15, 0, 8, 13, 3, 12, 9, 7, 5, 10, 6, 1],
  #v[13, 0, 11, 7, 4, 9, 1, 10, 14, 3, 5, 12, 2, 15, 8, 6],
  #v[1, 4, 11, 13, 12, 3, 7, 14, 10, 15, 6, 8, 0, 5, 9, 2],
  #v[6, 11, 13, 8, 1, 4, 10, 7, 9, 5, 0, 15, 14, 2, 3, 12]]

/-- S8, indexed by row and column (42_tables R135). -/
def S8 : Vector (Vector (BitVec 4) 16) 4 := #v[
  #v[13, 2, 8, 4, 6, 15, 11, 1, 10, 9, 3, 14, 5, 0, 12, 7],
  #v[1, 15, 13, 8, 10, 3, 7, 4, 12, 5, 6, 11, 0, 14, 9, 2],
  #v[7, 11, 4, 1, 9, 12, 14, 2, 0, 6, 10, 13, 15, 3, 5, 8],
  #v[2, 1, 14, 7, 4, 10, 8, 13, 15, 12, 9, 0, 3, 5, 6, 11]]

/-- The eight S-boxes; S_j stands at index j - 1 (42_tables R120). -/
def SBOX : Vector (Vector (Vector (BitVec 4) 16) 4) 8 :=
  #v[S1, S2, S3, S4, S5, S6, S7, S8]

end Sys2Proof.Machine.Tables
end

