-- ==== Sys2Proof/Machine/KeySchedule.lean ====
section
/-! DEFINITION. key_schedule_engine (43_key_schedule): `generate_round_keys` as a function, and the hardware steps that
compute it, `key_load` and `ks_step`. -/

namespace Sys2Proof.Machine

/-- SHIFTS[i] (42_tables R127). -/
def shiftAmount (i : Nat) : Nat := Tables.SHIFTS.getD i 0

/-- Both key halves rotated left by n positions (R140 step 3). -/
def rotateHalves (n : Nat) (cd : KeyHalf × KeyHalf) : KeyHalf × KeyHalf := (rotateBits cd.1 n, rotateBits cd.2 n)

/-- C_n and D_n of rule R140: the split parity drop, rotated n times. -/
def keyHalves (master : Block) : Nat → KeyHalf × KeyHalf
  | 0 => (hi28 (permute master Tables.PC1), lo28 (permute master Tables.PC1))
  | n + 1 => rotateHalves (shiftAmount n) (keyHalves master n)

/-- The compression of a pair of halves to a round key (R140 step 3; R144). -/
def compressKey (c d : KeyHalf) : RoundKey := permute (c ++ d) Tables.PC2

/-- K_i, the key of round i in forward order (R140). -/
def roundKey (master : Block) (i : Nat) : RoundKey :=
  compressKey (keyHalves master (i + 1)).1 (keyHalves master (i + 1)).2

/-- The RoundKeySet of a 64-bit master key (R140). -/
def roundKeys (master : Block) : Vector RoundKey 16 :=
  Vector.ofFn fun i => roundKey master i.val

/-- `generate_round_keys(master)`, failing `InvalidLength` unless the key has 64 bits (R140). -/
def callGenerateRoundKeys (master : BitString) : Except DesError (Vector RoundKey 16) :=
  if master.width = 64 then .ok (roundKeys (master.bits.setWidth 64)) else .error .invalidLength

/-- `key_load()` (R143). -/
def keyLoad (s : State) : State :=
  { s with
    c := hi28 (permute s.key.data Tables.PC1)
    d := lo28 (permute s.key.data Tables.PC1) }

/-- `ks_step(i)` (R144). -/
def ksStep (i : Round) (s : State) : State :=
  { s with
    rk := s.rk.set i (some (compressKey (rotateBits s.c (shiftAmount i)) (rotateBits s.d (shiftAmount i))))
    c := rotateBits s.c (shiftAmount i)
    d := rotateBits s.d (shiftAmount i) }

end Sys2Proof.Machine
end

