-- ==== Sys2Proof/Config.lean ====
section
/-! DEFINITION. What one implementation of the block fixes and the spec leaves open, and the free values. None has a body:
nothing in Lean can evaluate one or prove a value of it. -/

namespace Sys2Proof

/-- F_VARIANT, the content of versions 1, 2 and 3 of the round function (00_scope R8; 93 U1). DESIGN CHOICE, safe: any total
function of the half-block and the round key is allowed (44_round_function R166). Log 10. -/
opaque Config.fVariant : AlteredVersion → Half → RoundKey → Half

/-- Where the register space sits in the system's address map (20_memory R48; 93 U17). The block never uses it. Log 13. -/
opaque Config.desBase : Nat

/-- The pattern `host_rdata` carries for a register that holds no value (10_state R36; 93 U3). It stays the same until the
register holds a value or the block is reset (20_memory R47): the arguments are State's `resetCount` and the register. Logs 4
and 19. -/
opaque Config.freePattern : Nat → Reg → BitVec 64

/-- What `host_rdata` carries in a read, while busy, of a register that the running command writes, and in a cycle with no read
(93 U4, U7), drawn afresh at each edge: the argument is State's `freeCount`. Logs 5 and 6. -/
opaque Config.freeReadData : Nat → BitVec 64

/-- What `host_rlen` carries in a cycle with no read (46_host_access R203; 93 U7). Log 6. -/
opaque Config.freeReadLen : Nat → BitVec 8

/-- The round key of a round whose RK register holds no value, which no run reaches. Log 11. -/
opaque Config.freeRoundKey : Nat → RoundKey

end Sys2Proof
end

