-- ==== Sys2Proof/WellFormed.lean ====
section
/-! DEFINITION. Which terms of `Instr` stand for something the host can put on its ports: an index called unmapped must be
one (20_memory R44). Every other field fits by its type. -/

namespace Sys2Proof

/-- The index is in 0x08 to 0x0F or in 0x30 to 0x3F (10_state R22; 20_memory R44). -/
def isUnmapped (index : BitVec 6) : Bool :=
  (0x08 ≤ index.toNat && index.toNat ≤ 0x0F) || 0x30 ≤ index.toNat

/-- A register name is well formed unless it calls a mapped index unmapped. -/
def Reg.wellFormed : Reg → Bool
  | .unmapped index => isUnmapped index
  | .cmd | .status | .din | .key | .half | .rkey | .dout | .fout | .rk _ | .trace _ => true

/-- Well-formed instructions. A command word may hold any VER: 4 to 15 is a legal word whose command fails (R66). -/
def Instr.wellFormed : Instr → Bool
  | .enc _ | .dec _ | .keygen _ | .feval _ | .nop _ => true
  | .wr reg _ _ | .rd reg | .wrRd reg _ _ => reg.wellFormed

end Sys2Proof
end

