-- ==== Sys2Proof/Decode.lean ====
section
/-! DEFINITION. From the bits the host drives to an instruction, and back. A command word (format CMD16, 30_encoding R60)
can be illegal, and is then rejected by name; a host access (format HOSTACC, R67) never is. -/

namespace Sys2Proof

/-- The two formats of spec/opcode_table.json. -/
inductive Encoded where
  /-- CMD16: the 16-bit word of a CMD write (30_encoding R60) -/
  | cmd16 (word : BitVec 16)
  /-- HOSTACC: the access descriptor with the two data ports beside it (30_encoding R67; 95_test_vectors section 3) -/
  | hostAcc (descriptor : BitVec 8) (wdata : BitVec 64) (wlen : BitVec 8)
  deriving DecidableEq, Repr

/-- Why a command word is no command (30_encoding R64, R66). -/
inductive Reject where
  /-- RSV, bits [15:8], is not zero -/
  | reservedNotZero (rsv : BitVec 8)
  /-- OP, bits [3:0], is 0x0 or 0x5 to 0xF -/
  | illegalOpcode (op : BitVec 4)
  deriving DecidableEq, Repr

/-! ### Fields of the command word (30_encoding R60) -/

/-- OP, bits [3:0]. -/
def wordOp (word : BitVec 16) : BitVec 4 := word.extractLsb' 0 4

/-- VER, bits [7:4]. -/
def wordVer (word : BitVec 16) : BitVec 4 := word.extractLsb' 4 4

/-- RSV, bits [15:8]. -/
def wordRsv (word : BitVec 16) : BitVec 8 := word.extractLsb' 8 8

/-- The opcode map (30_encoding R61). -/
def decodeOp (op : BitVec 4) : Option CmdOp :=
  match op.toNat with
  | 1 => some .enc
  | 2 => some .dec
  | 3 => some .keygen
  | 4 => some .feval
  | _ => none

/-- The CipherVersion of a tag, none outside the enumeration (30_encoding R63). -/
def versionOfTag (tag : Nat) : Option CipherVersion :=
  match tag with
  | 0 => some .canonical
  | 1 => some (.altered .v1)
  | 2 => some (.altered .v2)
  | 3 => some (.altered .v3)
  | _ => none

/-- The opcode and the VER field of a command word, or why it is illegal (30_encoding R64, R66; 40_command_model R83). -/
def decodeCommand (word : BitVec 16) : Except Reject (CmdOp × BitVec 4) :=
  if wordRsv word ≠ 0 then .error (.reservedNotZero (wordRsv word))
  else
    match decodeOp (wordOp word) with
    | some op => .ok (op, wordVer word)
    | none => .error (.illegalOpcode (wordOp word))

/-- The instruction of a command. -/
def commandInstr (op : CmdOp) (ver : BitVec 4) : Instr :=
  match op with
  | .enc => .enc ver
  | .dec => .dec ver
  | .keygen => .keygen ver
  | .feval => .feval ver

/-- The register of a 6-bit index (10_state R22). -/
def decodeReg (index : BitVec 6) : Reg :=
  match index.toNat with
  | 0x00 => .cmd
  | 0x01 => .status
  | 0x02 => .din
  | 0x03 => .key
  | 0x04 => .half
  | 0x05 => .rkey
  | 0x06 => .dout
  | 0x07 => .fout
  | n =>
    if isUnmapped index then .unmapped index
    else if n < 0x20 then .rk (Fin.ofNat 16 n)
    else .trace (Fin.ofNat 16 n)

/-- A host access (30_encoding R67). Bit [7] is `host_wr`, bit [6] `host_rd`, bits [5:0] `host_addr`. -/
def decodeAccess (descriptor : BitVec 8) (wdata : BitVec 64) (wlen : BitVec 8) : Instr :=
  let index := descriptor.extractLsb' 0 6
  match descriptor.getLsbD 7, descriptor.getLsbD 6 with
  | true, false => .wr (decodeReg index) wdata wlen
  | false, true => .rd (decodeReg index)
  | true, true => .wrRd (decodeReg index) wdata wlen
  | false, false => .nop index

/-- The decoder: total, rejecting illegal command words by name. -/
def decode (e : Encoded) : Except Reject Instr :=
  match e with
  | .cmd16 word =>
    match decodeCommand word with
    | .ok (op, ver) => .ok (commandInstr op ver)
    | .error r => .error r
  | .hostAcc descriptor wdata wlen => .ok (decodeAccess descriptor wdata wlen)

/-- The instruction the decoder reads from the bits of an opcode-table row: 16 bits are a command word, 8 bits an access
descriptor whose data and length ports are zero. Log 14. -/
def decodeTableWord (nbits w : Nat) : Option Instr :=
  match nbits with
  | 16 => (decode (.cmd16 (BitVec.ofNat 16 w))).toOption
  | 8 => (decode (.hostAcc (BitVec.ofNat 8 w) 0 0)).toOption
  | _ => none

/-! ### The encoder -/

/-- The OP value of a command (30_encoding R61). -/
def CmdOp.code : CmdOp → BitVec 4
  | .enc => 0x1
  | .dec => 0x2
  | .keygen => 0x3
  | .feval => 0x4

/-- The command word with RSV = 0 (30_encoding R60, R66): `0x00V<OP>`. -/
def commandWord (op : CmdOp) (ver : BitVec 4) : BitVec 16 :=
  0#8 ++ ver ++ op.code

/-- The index of a register (10_state R22). -/
def encodeReg : Reg → BitVec 6
  | .cmd => 0x00
  | .status => 0x01
  | .din => 0x02
  | .key => 0x03
  | .half => 0x04
  | .rkey => 0x05
  | .dout => 0x06
  | .fout => 0x07
  | .rk i => BitVec.ofNat 6 (0x10 + i.val)
  | .trace i => BitVec.ofNat 6 (0x20 + i.val)
  | .unmapped index => index

/-- The access descriptor byte (30_encoding R67). -/
def accessDescriptor (wr rd : Bool) (index : BitVec 6) : BitVec 8 :=
  BitVec.ofBool wr ++ BitVec.ofBool rd ++ index

/-- The words of an instruction. The data ports of an access that writes nothing are encoded as zero. -/
def encode : Instr → Encoded
  | .enc ver => .cmd16 (commandWord .enc ver)
  | .dec ver => .cmd16 (commandWord .dec ver)
  | .keygen ver => .cmd16 (commandWord .keygen ver)
  | .feval ver => .cmd16 (commandWord .feval ver)
  | .wr reg data len => .hostAcc (accessDescriptor true false (encodeReg reg)) data len
  | .rd reg => .hostAcc (accessDescriptor false true (encodeReg reg)) 0 0
  | .wrRd reg data len => .hostAcc (accessDescriptor true true (encodeReg reg)) data len
  | .nop index => .hostAcc (accessDescriptor false false index) 0 0

end Sys2Proof
end

