-- ==== Sys2Proof/Machine/RoundFunction.lean ====
section
/-! DEFINITION. round_function_f (44_round_function): canonical f, the version mux over the open parameter F_VARIANT, the
reference instantiation F_VARIANT_REF, and the functional call with its failures. -/

namespace Sys2Proof.Machine

/-- What F_VARIANT is: one total function of (r, k) for each altered version (00_scope R8; 44 R166). -/
abbrev VariantFamily := AlteredVersion → Half → RoundKey → Half

/-- The row an S-box group selects: its outer two bits, the first the more significant (R162). -/
def sboxRow (g : BitVec 6) : BitVec 2 := BitVec.ofBool (bitAt g 1) ++ BitVec.ofBool (bitAt g 6)

/-- The column an S-box group selects: its inner four bits, the second the most significant (R162). -/
def sboxCol (g : BitVec 6) : BitVec 4 := g.extractLsb' 1 4

/-- One lane: the value of S-box S_(j+1) for the 6-bit group g (R162). -/
def sboxLane (j : Fin 8) (g : BitVec 6) : BitVec 4 :=
  ((Tables.SBOX.get j).get (sboxRow g).toFin).get (sboxCol g).toFin

/-- Group j + 1 of the 48-bit string, positions 6j+1 to 6j+6 (R162). -/
def sboxGroup (x : RoundKey) (j : Fin 8) : BitVec 6 := x.extractLsb' (42 - 6 * j.val) 6

/-- The substitution step: eight lanes, the first in the first four positions (R162). -/
def sbox (x : RoundKey) : Half :=
  sboxLane 0 (sboxGroup x 0) ++ sboxLane 1 (sboxGroup x 1) ++ sboxLane 2 (sboxGroup x 2) ++ sboxLane 3 (sboxGroup x 3)
    ++ sboxLane 4 (sboxGroup x 4) ++ sboxLane 5 (sboxGroup x 5) ++ sboxLane 6 (sboxGroup x 6) ++ sboxLane 7 (sboxGroup x 7)

/-- `f_0(r, k)`, the canonical round function (R160). -/
def canonicalF (r : Half) (k : RoundKey) : Half :=
  permute (sbox (permute r Tables.E ^^^ k)) Tables.P

/-- `F_VARIANT_REF`, the reference instantiation of the open parameter (R165). The machine does not use it. -/
def variantRef : VariantFamily
  | .v1, r, _ => permute (sbox (permute r Tables.E)) Tables.P
  | .v2, r, k => permute (permute (permute r Tables.E ^^^ k) Tables.E_INV) Tables.P
  | .v3, r, k => sbox (permute r Tables.E ^^^ k)

/-- The version mux over a given F_VARIANT (R164). -/
def muxF (fv : VariantFamily) (v : CipherVersion) (r : Half) (k : RoundKey) : Half :=
  match v with
  | .canonical => canonicalF r k
  | .altered a => fv a r k

/-- The round function of the block, over its own F_VARIANT (R164; 00_scope R8). -/
def roundF (v : CipherVersion) (r : Half) (k : RoundKey) : Half := muxF Config.fVariant v r k

/-- `f(half_block, round_key, version)`, its failures in the order of rule R163. -/
def callF (fv : VariantFamily) (halfBlock key : BitString) (tag : Nat) : Except DesError Half :=
  if halfBlock.width ≠ 32 then .error .invalidLength
  else if key.width ≠ 48 then .error .invalidLength
  else
    match versionOfTag tag with
    | none => .error .unknownVersion
    | some v => .ok (muxF fv v (halfBlock.bits.setWidth 32) (key.bits.setWidth 48))

end Sys2Proof.Machine
end

