-- ==== Sys2Proof/Machine/Feistel.lean ====
section
/-! DEFINITION. The Feistel engine (45_feistel_engine): the functional engine with `encrypt` and `decrypt`, and the hardware
steps `block_load`, `rnd_step` and `final_step`. -/

namespace Sys2Proof.Machine

/-! ### The functional engine -/

/-- One round: L' = R and R' = L xor f(R, k) (R181). -/
def roundPair (f : Half → RoundKey → Half) (k : RoundKey) (lr : Half × Half) : Half × Half :=
  (lr.2, lr.1 ^^^ f lr.2 k)

/-- (L_n, R_n) of block b under the keys ks and the round function f (R180, R181). -/
def feistelHalves (f : Half → RoundKey → Half) (b : Block) (ks : Vector RoundKey 16) : Nat → Half × Half
  | 0 => (hi32 (permute b Tables.IP), lo32 (permute b Tables.IP))
  | n + 1 => roundPair f (ks.getD n 0) (feistelHalves f b ks n)

/-- The trace: entry i is L_(i+1) ++ R_(i+1) (R181). -/
def feistelTrace (f : Half → RoundKey → Half) (b : Block) (ks : Vector RoundKey 16) : Vector Block 16 :=
  Vector.ofFn fun i => (feistelHalves f b ks (i.val + 1)).1 ++ (feistelHalves f b ks (i.val + 1)).2

/-- The terminal combination: R ++ L, not L ++ R, through the final permutation (R182). -/
def terminal (l r : Half) : Block := permute (r ++ l) Tables.FP

/-- The output block (R182). -/
def feistelOut (f : Half → RoundKey → Half) (b : Block) (ks : Vector RoundKey 16) : Block :=
  terminal (feistelHalves f b ks 16).1 (feistelHalves f b ks 16).2

/-- A key set in reverse order (R184). -/
def reverseKeys (ks : Vector RoundKey 16) : Vector RoundKey 16 := Vector.ofFn fun i => ks.get i.rev

/-- The keys a run uses in round order: forward for ENC, reversed for DEC (R183, R184). -/
def keysInOrder (decrypting : Bool) (master : Block) : Vector RoundKey 16 :=
  if decrypting then reverseKeys (roundKeys master) else roundKeys master

/-- `encrypt` or `decrypt` on operands of the right widths, with a version already decoded (R183, R184). -/
def cipher (fv : VariantFamily) (decrypting : Bool) (v : CipherVersion) (b master : Block) : Block :=
  feistelOut (muxF fv v) b (keysInOrder decrypting master)

/-- The trace of the same run. -/
def cipherTrace (fv : VariantFamily) (decrypting : Bool) (v : CipherVersion) (b master : Block) : Vector Block 16 :=
  feistelTrace (muxF fv v) b (keysInOrder decrypting master)

/-- The three checks of `encrypt` and `decrypt`, in order, and then the run (R183, R184). -/
def callCipher (fv : VariantFamily) (decrypting : Bool) (text key : BitString) (tag : Nat) :
    Except DesError (Block × Vector Block 16) :=
  if text.width ≠ 64 then .error .invalidLength
  else
    match callGenerateRoundKeys key with
    | .error e => .error e
    | .ok _ =>
      match versionOfTag tag with
      | none => .error .unknownVersion
      | some v =>
        .ok (cipher fv decrypting v (text.bits.setWidth 64) (key.bits.setWidth 64),
          cipherTrace fv decrypting v (text.bits.setWidth 64) (key.bits.setWidth 64))

/-- `encrypt(plaintext, key, version)`, giving the ciphertext and the trace (R183). -/
def callEncrypt (fv : VariantFamily) (plaintext key : BitString) (tag : Nat) :
    Except DesError (Block × Vector Block 16) :=
  callCipher fv false plaintext key tag

/-- `decrypt(ciphertext, key, version)`, giving the plaintext, and the trace that the hardware keeps (R184). -/
def callDecrypt (fv : VariantFamily) (ciphertext key : BitString) (tag : Nat) :
    Except DesError (Block × Vector Block 16) :=
  callCipher fv true ciphertext key tag

/-! ### The hardware steps -/

/-- `block_load()` (R185). -/
def blockLoad (s : State) : State :=
  { s with
    l := hi32 (permute s.din.data Tables.IP)
    r := lo32 (permute s.din.data Tables.IP) }

/-- The RK register that round i reads: RK[i] in ENC, RK[15 - i] in DEC (R186). OPL = KEYGEN in the RND phase, which no run
reaches, reads none (log 11). -/
def roundKeyRegister (i : Round) (s : State) : Option RoundKey :=
  match s.opl with
  | .enc => s.rk.get i
  | .dec => s.rk.get i.rev
  | .keygen => none

/-- The key of round i. Where the register holds no value, which no run reaches, it is a free value (log 11). -/
def selectedRoundKey (i : Round) (s : State) : RoundKey :=
  (roundKeyRegister i s).getD (Config.freeRoundKey s.freeCount)

/-- R' of `rnd_step(i)` (R186). -/
def nextR (i : Round) (s : State) : Half := s.l ^^^ roundF s.verl s.r (selectedRoundKey i s)

/-- `rnd_step(i)`; L' is the old R (R186). -/
def rndStep (i : Round) (s : State) : State :=
  { s with
    trace := s.trace.set i (some (s.r ++ nextR i s))
    l := s.r
    r := nextR i s }

/-- `final_step()`, on the halves that `rnd_step(15)` has just computed (R187). -/
def finalStep (s : State) : State :=
  { s with dout := some (terminal s.l s.r) }

end Sys2Proof.Machine
end

