-- ==== Sys2Proof/Machine/Flags.lean ====
section
/-! DEFINITION. STATUS: its fields, its error codes, and every way the block writes it (10_state R26, R27; 60_exceptions R220,
R221). -/

namespace Sys2Proof.Machine

/-- STATUS.ERR (60_exceptions R220). -/
inductive ErrCode where
  | none | invalidLength | lengthMismatch | unknownVersion | illegalCommand
  deriving DecidableEq, Repr

/-- The code of an error. LENGTH_MISMATCH is never written (R225). -/
def ErrCode.code : ErrCode → BitVec 3
  | .none => 0
  | .invalidLength => 1
  | .lengthMismatch => 2
  | .unknownVersion => 3
  | .illegalCommand => 4

/-- STATUS.ERR_ARG (60_exceptions R221). -/
inductive ErrArg where
  | none | din | key | half | rkey | ver | cmd
  deriving DecidableEq, Repr

/-- The code of an argument. -/
def ErrArg.code : ErrArg → BitVec 3
  | .none => 0
  | .din => 1
  | .key => 2
  | .half => 3
  | .rkey => 4
  | .ver => 5
  | .cmd => 6

/-- STATUS.BUSY, bit [0]. -/
def statusBusy (w : BitVec 16) : Bool := w.getLsbD 0

/-- STATUS.DONE, bit [1]. -/
def statusDone (w : BitVec 16) : Bool := w.getLsbD 1

/-- STATUS.OVR, bit [2]. -/
def statusOvr (w : BitVec 16) : Bool := w.getLsbD 2

/-- STATUS.ERR, bits [6:4]. -/
def statusErr (w : BitVec 16) : BitVec 3 := w.extractLsb' 4 3

/-- STATUS.ERR_ARG, bits [10:8]. -/
def statusErrArg (w : BitVec 16) : BitVec 3 := w.extractLsb' 8 3

/-- The reserved bits [3], [7] and [15:11] of a STATUS word, all others cleared. -/
def statusReserved (w : BitVec 16) : BitVec 16 := w &&& 0xF888

/-- The STATUS word of given fields, reserved bits 0 (10_state R26). -/
def packStatus (busy done ovr : Bool) (err : ErrCode) (arg : ErrArg) : BitVec 16 :=
  0#5 ++ arg.code ++ 0#1 ++ err.code ++ 0#1 ++ BitVec.ofBool ovr ++ BitVec.ofBool done ++ BitVec.ofBool busy

/-- STATUS at the issue edge of a started ENC, DEC or KEYGEN (40_command_model R81). -/
def startedStatus : BitVec 16 := packStatus true false false .none .none

/-- STATUS at the issue edge of a successful FEVAL (44_round_function R168). -/
def succeededStatus : BitVec 16 := packStatus false true false .none .none

/-- STATUS after a failure (60_exceptions R226). -/
def failedStatus (err : ErrCode) (arg : ErrArg) : BitVec 16 := packStatus false true false err arg

/-- `STATUS.OVR <- 1` (40_command_model R82). -/
def markOverrun (w : BitVec 16) : BitVec 16 := w ||| 0x0004

/-- `STATUS.BUSY <- 0, STATUS.DONE <- 1`, the rest as it is (40_command_model R86). -/
def markComplete (w : BitVec 16) : BitVec 16 := (w &&& 0xFFFE) ||| 0x0002

/-- The `busy` output port (10_state R21; 60_exceptions R238). -/
def State.busyPin (s : State) : Bool := statusBusy s.status

/-- The `done` output port (10_state R21; 60_exceptions R238). -/
def State.donePin (s : State) : Bool := statusDone s.status

end Sys2Proof.Machine
end

