-- ==== Sys2Proof/Machine/Operands.lean ====
section
/-! DEFINITION. The operand registers and the validation of a command (10_state R28; 40_command_model R83). -/

namespace Sys2Proof.Machine

/-- The four operand registers (10_state R28). -/
inductive OperandName where
  | din | key | half | rkey
  deriving DecidableEq, Repr

/-- The width W of an operand register, which LEN must equal when a command reads it (10_state R22; 30_encoding R62). -/
def OperandName.width : OperandName → Nat
  | .din => 64
  | .key => 64
  | .half => 32
  | .rkey => 48

/-- The ERR_ARG that names the register (60_exceptions R221). -/
def OperandName.errArg : OperandName → ErrArg
  | .din => .din
  | .key => .key
  | .half => .half
  | .rkey => .rkey

/-- The length tag the register holds. -/
def lenOf (o : OperandName) (s : State) : BitVec 8 :=
  match o with
  | .din => s.din.len
  | .key => s.key.len
  | .half => s.half.len
  | .rkey => s.rkey.len

/-- LEN = W, so that a command may use the register (10_state R28). -/
def lenOk (o : OperandName) (s : State) : Bool := (lenOf o s).toNat == o.width

/-- The operands of a command, in the order they are checked (40_command_model R83). -/
def operandsOf : CmdOp → List OperandName
  | .enc => [.din, .key]
  | .dec => [.din, .key]
  | .keygen => [.key]
  | .feval => [.half, .rkey]

/-- The first operand, in order, whose LEN is wrong. -/
def firstBadOperand (op : CmdOp) (s : State) : Option OperandName :=
  (operandsOf op).find? fun o => !lenOk o s

/-- What a failing command records (60_exceptions R226). -/
structure Failure where
  err : ErrCode
  arg : ErrArg
  deriving DecidableEq, Repr

/-- A command whose validation has passed, with its version where it uses one. -/
inductive Accepted where
  | enc (v : CipherVersion)
  | dec (v : CipherVersion)
  | keygen
  | feval (v : CipherVersion)
  deriving DecidableEq, Repr

/-- The version check, for a command that uses VER (30_encoding R63; 60_exceptions R223). -/
def withVersion (ver : BitVec 4) (accept : CipherVersion → Accepted) : Except Failure Accepted :=
  match versionOfTag ver.toNat with
  | some v => .ok (accept v)
  | none => .error ⟨.unknownVersion, .ver⟩

/-- The last check: KEYGEN ignores VER, the others decode it. -/
def acceptVersion (op : CmdOp) (ver : BitVec 4) : Except Failure Accepted :=
  match op with
  | .enc => withVersion ver .enc
  | .dec => withVersion ver .dec
  | .keygen => .ok .keygen
  | .feval => withVersion ver .feval

/-- `validate(w)`: the first failure in the order of rules R83 and R227, or the accepted command. -/
def validate (word : BitVec 16) (s : State) : Except Failure Accepted :=
  match decodeCommand word with
  | .error _ => .error ⟨.illegalCommand, .cmd⟩
  | .ok (op, ver) =>
    match firstBadOperand op s with
    | some o => .error ⟨.invalidLength, o.errArg⟩
    | none => acceptVersion op ver

end Sys2Proof.Machine
end

