-- ==== Sys2Proof/Machine/Ops.lean ====
section
/-! DEFINITION. The operations every instruction shares: the failure entry, the start of a run, completion, the sequencer
step, issue and drop of a CMD write, reading and writing a register by name, the read ports, reset, and which cycle the host
drives next. -/

namespace Sys2Proof.Machine

/-! ### Commands -/

/-- Failure entry, the block's one exception (60_exceptions R226): CMD and STATUS are written and nothing else. There is no
return from it (R228). -/
def failureEntry (word : BitVec 16) (e : Failure) (s : State) : State :=
  { s with cmd := word, status := failedStatus e.err e.arg }

/-- The control state of a run that begins: OPL and VERL latched, PHASE <- KS, IDX <- 0, STATUS busy (40_command_model R81). -/
def beginRun (op : RunOp) (v : CipherVersion) (s : State) : State :=
  { s with opl := op, verl := v, phase := .ks, idx := 0, status := startedStatus }

/-- The issue edge of a started ENC (45_feistel_engine R188). -/
def startEnc (v : CipherVersion) (s : State) : State := beginRun .enc v (blockLoad (keyLoad s))

/-- The issue edge of a started DEC (45_feistel_engine R189). -/
def startDec (v : CipherVersion) (s : State) : State := beginRun .dec v (blockLoad (keyLoad s))

/-- The issue edge of a started KEYGEN; VERL keeps its value (43_key_schedule R145; 40_command_model R81). -/
def startKeygen (s : State) : State := beginRun .keygen s.verl (keyLoad s)

/-- The issue edge of a started FEVAL, which completes there (44_round_function R168). -/
def startFeval (v : CipherVersion) (s : State) : State :=
  { s with fout := some (roundF v s.half.data s.rkey.data), status := succeededStatus }

/-- What the issue edge does for an accepted command. -/
def startCommand (a : Accepted) (s : State) : State :=
  match a with
  | .enc v => startEnc v s
  | .dec v => startDec v s
  | .keygen => startKeygen s
  | .feval v => startFeval v s

/-- Issue: a CMD write while PHASE = IDLE (40_command_model R81). -/
def issue (word : BitVec 16) (s : State) : State :=
  match validate word s with
  | .error e => failureEntry word e s
  | .ok a => startCommand a { s with cmd := word }

/-! ### The sequencer -/

/-- `complete()` (40_command_model R86). -/
def complete (s : State) : State :=
  { s with phase := .idle, idx := 0, status := markComplete s.status }

/-- The sequencer step of an edge with `rst` = 0; while idle it does nothing (40_command_model R84, R85). -/
def sequencerStep (s : State) : State :=
  match s.phase with
  | .idle => s
  | .ks =>
    if s.idx.val < 15 then { ksStep s.idx s with idx := s.idx + 1 }
    else if s.opl = .keygen then complete (ksStep s.idx s)
    else { ksStep s.idx s with phase := .rnd, idx := 0 }
  | .rnd =>
    if s.idx.val < 15 then { rndStep s.idx s with idx := s.idx + 1 }
    else complete (finalStep (rndStep s.idx s))

/-- `STATUS.OVR <- 1` (40_command_model R82). -/
def setOverrun (s : State) : State := { s with status := markOverrun s.status }

/-! ### Registers by name -/

/-- A CMD write: issue while idle, else the running command steps on and the word is dropped (40_command_model R81, R82,
R84). -/
def writeCmd (word : BitVec 16) (s : State) : State :=
  if s.phase = .idle then issue word s else setOverrun (sequencerStep s)

/-- One edge with a host write: the sequencer step and the write both take effect (40_command_model R84; 46_host_access R200).
A write to an operand register stores data and LEN; a write to any other index but CMD does nothing (20_memory R44). -/
def writeReg (reg : Reg) (data : BitVec 64) (len : BitVec 8) (s : State) : State :=
  match reg with
  | .cmd => writeCmd (data.setWidth 16) s
  | .din => { sequencerStep s with din := ⟨data, len⟩ }
  | .key => { sequencerStep s with key := ⟨data, len⟩ }
  | .half => { sequencerStep s with half := ⟨data.setWidth 32, len⟩ }
  | .rkey => { sequencerStep s with rkey := ⟨data.setWidth 48, len⟩ }
  | .status | .dout | .fout | .rk _ | .trace _ | .unmapped _ => sequencerStep s

/-- The running command writes this register, so that a read of it while busy returns any value (46_host_access R202;
20_memory R41). -/
def runningWrites (reg : Reg) (s : State) : Bool :=
  statusBusy s.status &&
    match reg with
    | .rk _ => true
    | .dout | .trace _ => s.opl != .keygen
    | .cmd | .status | .din | .key | .half | .rkey | .fout | .unmapped _ => false

/-- The register holds a value: only DOUT, FOUT, RK and TRACE can hold none (10_state R36). -/
def holdsValue (reg : Reg) (s : State) : Bool :=
  match reg with
  | .dout => s.dout.isSome
  | .fout => s.fout.isSome
  | .rk i => (s.rk.get i).isSome
  | .trace i => (s.trace.get i).isSome
  | .cmd | .status | .din | .key | .half | .rkey | .unmapped _ => true

/-- `result(X)`: the value the register holds, or any value where the running command writes it or where it holds none
(46_host_access R201). The first is drawn afresh at each read (log 5), the second is the register's own pattern, the same in
every read until a command writes the register or a reset comes (20_memory R47; log 4). -/
def resultValue {w : Nat} (reg : Reg) (held : Option (BitVec w)) (s : State) : BitVec w :=
  if runningWrites reg s then (Config.freeReadData s.freeCount).setWidth w
  else held.getD ((Config.freePattern s.resetCount reg).setWidth w)

/-- The data `RegRead` drives, zero-extended to the bus (46_host_access R201). -/
def readData (reg : Reg) (s : State) : BitVec 64 :=
  match reg with
  | .cmd => s.cmd.setWidth 64
  | .status => s.status.setWidth 64
  | .din => s.din.data
  | .key => s.key.data
  | .half => s.half.data.setWidth 64
  | .rkey => s.rkey.data.setWidth 64
  | .dout => resultValue .dout s.dout s
  | .fout => (resultValue .fout s.fout s).setWidth 64
  | .rk i => (resultValue (.rk i) (s.rk.get i) s).setWidth 64
  | .trace i => resultValue (.trace i) (s.trace.get i) s
  | .unmapped _ => 0

/-- The length tag `RegRead` drives (46_host_access R201, R203). -/
def readLen (reg : Reg) (s : State) : BitVec 8 :=
  match reg with
  | .cmd => 16
  | .status => 16
  | .din => s.din.len
  | .key => s.key.len
  | .half => s.half.len
  | .rkey => s.rkey.len
  | .dout => 64
  | .fout => 32
  | .rk _ => 48
  | .trace _ => 64
  | .unmapped _ => 0

/-! ### The end of a cycle -/

/-- The cycle had a read of `reg`: the read ports carried its value from before the edge, `before`; `after` is the state the
edge leaves (46_host_access R201, R204). -/
def drivePorts (reg : Reg) (before after : State) : State :=
  { after with hostRdata := readData reg before, hostRlen := readLen reg before, freeCount := before.freeCount + 1 }

/-- The cycle had no read: the read ports carried any value (46_host_access R203, R205; log 6). -/
def floatPorts (before after : State) : State :=
  { after with
    hostRdata := Config.freeReadData before.freeCount
    hostRlen := Config.freeReadLen before.freeCount
    freeCount := before.freeCount + 1 }

/-! ### Reset and the host's coming cycles -/

/-- A WR to CMD of a legal command word is that command; every other access is itself (30_encoding R61, R67). -/
def asCommand (i : Instr) : Instr :=
  match i with
  | .wr reg data len =>
    match reg, decodeCommand (data.setWidth 16) with
    | .cmd, .ok (op, ver) => commandInstr op ver
    | _, _ => .wr reg data len
  | .enc ver => .enc ver
  | .dec ver => .dec ver
  | .keygen ver => .keygen ver
  | .feval ver => .feval ver
  | .rd reg => .rd reg
  | .wrRd reg data len => .wrRd reg data len
  | .nop index => .nop index

/-- The instruction of a cycle's ports (30_encoding R67). -/
def cycleInstr (p : HostCycle) : Instr :=
  asCommand (decodeAccess (accessDescriptor p.wr p.rd p.addr) p.wdata p.wlen)

/-- What an edge with `rst` = 1 writes to the block: the reset state (70_reset_and_hazards R250). The host's coming cycles
are the host's, and the model's two counters run on (logs 1, 9, 19). -/
def resetState (s : State) : State :=
  { State.reset with hostProgram := s.hostProgram, freeCount := s.freeCount, resetCount := s.resetCount + 1 }

/-- An edge with `rst` = 1: the host's write is lost, a read of the cycle returns the value before the edge
(70_reset_and_hazards R250). -/
def resetEdge (p : HostCycle) (s : State) : State :=
  if p.rd then drivePorts (decodeReg p.addr) s (resetState s) else floatPorts s (resetState s)

/-- A cycle in which the host drives nothing (46_host_access R205). -/
def idleCycle : HostCycle := ⟨false, false, false, 0, 0, 0⟩

/-- A cycle that reads STATUS, what `wait` does in every cycle it lasts (30_encoding R69). -/
def statusReadCycle : HostCycle := ⟨false, false, true, 0x01, 0, 0⟩

/-- The ports of the coming cycle, and the state with the host advanced past it. `wait` stays until the STATUS it reads has
BUSY = 0 (30_encoding R69); after the last line the host drives nothing (log 1). -/
def fetchCycle (s : State) : HostCycle × State :=
  match s.hostProgram with
  | [] => (idleCycle, s)
  | .drive p :: rest => (p, { s with hostProgram := rest })
  | .wait :: rest => (statusReadCycle, if statusBusy s.status then s else { s with hostProgram := rest })

end Sys2Proof.Machine
end

