-- ==== Sys2Proof/Machine/Commands.lean ====
section
/-! DEFINITION. The four command instructions: the cycle in which the host writes the command's word to CMD (30_encoding R61;
40_command_model R80). While idle the command is issued and fails or starts; while busy its word is dropped. -/

namespace Sys2Proof.Machine

/-- ENC (45_feistel_engine R188). -/
def execEnc (ver : BitVec 4) (s : State) : Host.Outcome State Fault Refusal :=
  .next (floatPorts s (writeCmd (commandWord .enc ver) s))

/-- DEC (45_feistel_engine R189). -/
def execDec (ver : BitVec 4) (s : State) : Host.Outcome State Fault Refusal :=
  .next (floatPorts s (writeCmd (commandWord .dec ver) s))

/-- KEYGEN (43_key_schedule R145). -/
def execKeygen (ver : BitVec 4) (s : State) : Host.Outcome State Fault Refusal :=
  .next (floatPorts s (writeCmd (commandWord .keygen ver) s))

/-- FEVAL (44_round_function R168). -/
def execFeval (ver : BitVec 4) (s : State) : Host.Outcome State Fault Refusal :=
  .next (floatPorts s (writeCmd (commandWord .feval ver) s))

end Sys2Proof.Machine
end

