-- ==== Sys2Proof/Machine/HostAccess.lean ====
section
/-! DEFINITION. The four host accesses (46_host_access R200 to R205), and the boundary driver that carries a bit string of any
length into an operand register (R206). -/

namespace Sys2Proof.Machine

/-- WR (46_host_access R200). -/
def execWr (reg : Reg) (data : BitVec 64) (len : BitVec 8) (s : State) : Host.Outcome State Fault Refusal :=
  .next (floatPorts s (writeReg reg data len s))

/-- RD (46_host_access R201). -/
def execRd (reg : Reg) (s : State) : Host.Outcome State Fault Refusal :=
  .next (drivePorts reg s (sequencerStep s))

/-- WR and RD of one index in one cycle: the read sees the value before the edge (46_host_access R204). -/
def execWrRd (reg : Reg) (data : BitVec 64) (len : BitVec 8) (s : State) : Host.Outcome State Fault Refusal :=
  .next (drivePorts reg s (writeReg reg data len s))

/-- No access; the index is ignored (46_host_access R205). -/
def execNop (_index : BitVec 6) (s : State) : Host.Outcome State Fault Refusal :=
  .next (floatPorts s (sequencerStep s))

/-- LEN as a boundary driver writes it: the string's length, saturated at 255 so that a wrong length never wraps to a right one
(46_host_access R206). -/
def boundaryLen (width : Nat) : BitVec 8 := BitVec.ofNat 8 (min width 255)

/-- `host_wdata` as a boundary driver writes it: the string's integer value; for a string of more than 64 bits any 64 bits do
(46_host_access R206; log 16). -/
def boundaryData (s : BitString) : BitVec 64 := s.bits.setWidth 64

/-- The write instruction a boundary driver makes of a bit string (46_host_access R206). -/
def boundaryWrite (reg : Reg) (s : BitString) : Instr := .wr reg (boundaryData s) (boundaryLen s.width)

end Sys2Proof.Machine
end

