-- ==== Sys2Proof/Machine/Dispatch.lean ====
section
/-! DEFINITION. One arm per instruction. -/

namespace Sys2Proof.Machine

def exec (i : Instr) (s : State) : Host.Outcome State Fault Refusal :=
  match i with
  | .enc ver => Sys2Proof.Machine.execEnc ver s
  | .dec ver => Sys2Proof.Machine.execDec ver s
  | .keygen ver => Sys2Proof.Machine.execKeygen ver s
  | .feval ver => Sys2Proof.Machine.execFeval ver s
  | .wr reg data len => Sys2Proof.Machine.execWr reg data len s
  | .rd reg => Sys2Proof.Machine.execRd reg s
  | .wrRd reg data len => Sys2Proof.Machine.execWrRd reg data len s
  | .nop index => Sys2Proof.Machine.execNop index s

end Sys2Proof.Machine
end

