-- ==== Sys2Proof/Machine/HostProgram.lean ====
section
/-! DEFINITION. Host programs (30_encoding R68, R69): the lines, their cycles, and the pseudo-instructions' expansions. -/

namespace Sys2Proof.Machine

/-- The width of a register, the LEN a `wr` line writes when it names none (10_state R22; 30_encoding R68). -/
def regWidth : Reg → Nat
  | .cmd => 16
  | .status => 16
  | .din => 64
  | .key => 64
  | .half => 32
  | .rkey => 48
  | .dout => 64
  | .fout => 32
  | .rk _ => 48
  | .trace _ => 64
  | .unmapped _ => 0

/-- A line of a host program, pseudo-instructions included (30_encoding R68, R69). -/
inductive AsmLine where
  /-- `wr <REG>, <hex>` or `wr <REG>, <hex>, len=<n>` -/
  | wr (reg : Reg) (value : Nat) (len : Option (BitVec 8))
  /-- `rd <REG>` -/
  | rd (reg : Reg)
  /-- `cmdw <hex16>` -/
  | cmdw (word : BitVec 16)
  /-- `cmd <OP>` or `cmd <OP>, v<n>`. DESIGN CHOICE, safe: n is 0 to 15, for which the spec states no bound (log 18) -/
  | cmd (op : CmdOp) (ver : Option (BitVec 4))
  | nop
  | wait
  /-- `encrypt <p>, <k>, v<n>` -/
  | encrypt (p k : Nat) (ver : BitVec 4)
  /-- `decrypt <c>, <k>, v<n>` -/
  | decrypt (c k : Nat) (ver : BitVec 4)
  /-- `keygen <k>` -/
  | keygen (k : Nat)
  /-- `feval <r>, <k>, v<n>` -/
  | feval (r k : Nat) (ver : BitVec 4)
  deriving DecidableEq, Repr

/-- A cycle with a WR (46_host_access R200). -/
def writeCycle (reg : Reg) (data : BitVec 64) (len : BitVec 8) : HostCycle := ⟨false, true, false, encodeReg reg, data, len⟩

/-- A cycle with a RD (46_host_access R201). -/
def readCycle (reg : Reg) : HostCycle := ⟨false, false, true, encodeReg reg, 0, 0⟩

/-- A cycle with `rst` = 1 and no access (70_reset_and_hazards R250). -/
def resetCycle : HostCycle := { idleCycle with rst := true }

/-- A CMD write of a raw word; `host_wlen` is ignored and shown as 0x10 (95_test_vectors section 3). -/
def cmdCycle (word : BitVec 16) : HostCycle := writeCycle .cmd (word.setWidth 64) 0x10

/-- The ports that carry an opcode-table word: a 16-bit command word is the data of a WR to CMD, 8 bits are an access
descriptor with zero on the data ports (log 14). -/
def tableWordCycle (nbits w : Nat) : HostCycle :=
  if nbits = 16 then cmdCycle (BitVec.ofNat 16 w)
  else ⟨false, (BitVec.ofNat 8 w).getLsbD 7, (BitVec.ofNat 8 w).getLsbD 6, (BitVec.ofNat 8 w).extractLsb' 0 6, 0, 0⟩

/-- `wr <REG>, <hex>` with LEN the register's width. -/
def asmWr (reg : Reg) (value : Nat) : HostLine :=
  .drive (writeCycle reg (BitVec.ofNat 64 value) (BitVec.ofNat 8 (regWidth reg)))

/-- `cmd <OP>, v<n>`: the word `OP | (n << 4)`. -/
def asmCmd (op : CmdOp) (ver : BitVec 4) : HostLine := .drive (cmdCycle (commandWord op ver))

/-- `rd <REG>`. -/
def asmRd (reg : Reg) : HostLine := .drive (readCycle reg)

/-- The cycles of one line (30_encoding R68) or of one pseudo-instruction (R69). -/
def AsmLine.expand : AsmLine → List HostLine
  | .wr reg value none => [asmWr reg value]
  | .wr reg value (some len) => [.drive (writeCycle reg (BitVec.ofNat 64 value) len)]
  | .rd reg => [asmRd reg]
  | .cmdw word => [.drive (cmdCycle word)]
  | .cmd op ver => [asmCmd op (ver.getD 0)]
  | .nop => [.drive idleCycle]
  | .wait => [.wait]
  | .encrypt p k ver => [asmWr .din p, asmWr .key k, asmCmd .enc ver, .wait, asmRd .dout]
  | .decrypt c k ver => [asmWr .din c, asmWr .key k, asmCmd .dec ver, .wait, asmRd .dout]
  | .keygen k => [asmWr .key k, asmCmd .keygen 0, .wait] ++ (List.finRange 16).map fun i => asmRd (.rk i)
  | .feval r k ver => [asmWr .half r, asmWr .rkey k, asmCmd .feval ver, .wait, asmRd .fout]

/-- A whole program's cycles, in order. -/
def assemble (lines : List AsmLine) : List HostLine := lines.flatMap AsmLine.expand

/-- The state in which the host is about to run the given lines (log 2). -/
def State.withProgram (s : State) (lines : List HostLine) : State := { s with hostProgram := lines }

end Sys2Proof.Machine
end

