-- ==== Sys2Proof/Machine/Step.lean ====
section
/-! DEFINITION. One step is one rising edge of `clk` (40_command_model R84): the host's coming cycle is taken, `rst` overrides
everything else, else the cycle's access runs. -/

namespace Sys2Proof.Machine

/-- The step. -/
def step (s : State) : Host.Outcome State Fault Refusal :=
  if (fetchCycle s).1.rst then .next (resetEdge (fetchCycle s).1 (fetchCycle s).2)
  else exec (cycleInstr (fetchCycle s).1) (fetchCycle s).2

/-- The state with an opcode-table word as the host's next cycle (log 2). -/
def State.withFetchWord (s : State) (nbits w : Nat) : State :=
  { s with hostProgram := .drive (tableWordCycle nbits w) :: s.hostProgram }

end Sys2Proof.Machine
end

