-- ==== Sys2Proof/Machine/Strict.lean ====
section
/-! DEFINITION. The check of 10_state R36: a model of the block reports a read of a register that holds no value, where the
hardware drives an unspecified pattern and goes on. The machine's step goes on too; the check stands beside it, for a claim that
wants no such read in its run (log 4). -/

namespace Sys2Proof.Machine

/-- The register without a value that a cycle reads, if there is one. A register that the running command writes is none of
them: its read returns any value (10_state R36; 46_host_access R202; log 5). -/
def noValueRead (p : HostCycle) (s : State) : Option Reg :=
  if p.rd && !holdsValue (decodeReg p.addr) s && !runningWrites (decodeReg p.addr) s then some (decodeReg p.addr) else none

/-- One step under that check: the register whose read the check reports as an error, or what the step answers (10_state R36;
46_host_access R201; 93 U3). -/
def strictStep (s : State) : Except Reg (Host.Outcome State Fault Refusal) :=
  match noValueRead (fetchCycle s).1 s with
  | some reg => .error reg
  | none => .ok (step s)

end Sys2Proof.Machine
end

