-- ==== Sys2Proof/Safety.lean ====
section
/-! DEFINITION. What the claims mean by a good state, a ready command, a reliable read and an undisturbed run. -/

namespace Sys2Proof.Machine

/-! ### Good states -/

/-- Every entry of a register file holds a value. -/
def allHeld {w : Nat} (file : Vector (Option (BitVec w)) 16) : Prop := ∀ i : Round, (file.get i).isSome = true

/-- No entry of a register file holds a value. -/
def noneHeld {w : Nat} (file : Vector (Option (BitVec w)) 16) : Prop := ∀ i : Round, file.get i = none

/-- The entries before `n` hold values. -/
def heldBelow {w : Nat} (file : Vector (Option (BitVec w)) 16) (n : Nat) : Prop :=
  ∀ i : Round, i.val < n → (file.get i).isSome = true

/-- The (ERR, ERR_ARG) pairs the block writes (60_exceptions R220, R221, R222 to R225). -/
def errorPairs : List (BitVec 3 × BitVec 3) := [(0, 0), (1, 1), (1, 2), (1, 3), (1, 4), (3, 5), (4, 6)]

/-- The opcode a word must hold for a run latched as `op` (40_command_model R81). -/
def RunOp.cmdOp : RunOp → CmdOp
  | .enc => .enc
  | .dec => .dec
  | .keygen => .keygen

/-- What the STATUS word always satisfies, given the phase (10_state R26, R32; 60_exceptions R220, R221). -/
structure StatusGood (s : State) : Prop where
  busy_iff_running : statusBusy s.status = true ↔ s.phase ≠ .idle
  not_busy_and_done : ¬(statusBusy s.status = true ∧ statusDone s.status = true)
  busy_has_no_error : statusBusy s.status = true → statusErr s.status = 0 ∧ statusErrArg s.status = 0
  error_is_known : (statusErr s.status, statusErrArg s.status) ∈ errorPairs
  reserved_zero : statusReserved s.status = 0

/-- What the sequencer's control state always satisfies (10_state R25, R32; 40_command_model R82, R85). -/
structure ControlGood (s : State) : Prop where
  idle_at_zero : s.phase = .idle → s.idx = 0
  keygen_has_no_rounds : s.phase = .rnd → s.opl ≠ .keygen
  cmd_is_running_word : s.phase ≠ .idle → ∃ ver, decodeCommand s.cmd = .ok (s.opl.cmdOp, ver) ∧
    (s.opl ≠ .keygen → versionOfTag ver.toNat = some s.verl)

/-- Which result registers hold values: a file is whole or empty whenever no command is writing it (10_state R30, R31, R36;
45_feistel_engine R186; 70_reset_and_hazards R251). -/
structure ResultsGood (s : State) : Prop where
  keys_whole_or_empty : s.phase = .idle → allHeld s.rk ∨ noneHeld s.rk
  keys_written_so_far : s.phase = .ks → heldBelow s.rk s.idx.val
  keys_complete_in_rounds : s.phase = .rnd → allHeld s.rk
  trace_whole_or_empty : s.phase ≠ .rnd → (allHeld s.trace ∧ s.dout.isSome = true) ∨ (noneHeld s.trace ∧ s.dout = none)
  trace_written_so_far : s.phase = .rnd → heldBelow s.trace s.idx.val

/-- The invariant of the block: it holds at reset and every step keeps it. -/
structure State.Inv (s : State) : Prop where
  statusGood : StatusGood s
  controlGood : ControlGood s
  resultsGood : ResultsGood s

/-! ### Ready commands, reliable reads, undisturbed runs -/

/-- Every operand register the command reads has LEN = W (40_command_model R83; 70_reset_and_hazards R252). -/
def operandsReady (op : CmdOp) (s : State) : Prop := ∀ o ∈ operandsOf op, (lenOf o s).toNat = o.width

/-- A read the host may rely on: the register holds a value, and no running command writes it. Any other read is the one that
10_state R36 lets a model fault or that 46_host_access R202 says returns any value (70_reset_and_hazards R253, R255). -/
def readReliable (reg : Reg) (s : State) : Bool := holdsValue reg s && !runningWrites reg s

/-- A cycle that keeps the host's rules: a read is reliable, and CMD is written only while idle (70_reset_and_hazards R255,
R256). -/
def cycleSafe (p : HostCycle) (s : State) : Bool :=
  (!p.rd || readReliable (decodeReg p.addr) s) && (!p.wr || decodeReg p.addr != .cmd || !statusBusy s.status)

/-- An edge from `s` to `t` does not change the register (20_memory R47). -/
def unchanged (reg : Reg) (s t : State) : Prop :=
  match reg with
  | .cmd => t.cmd = s.cmd
  | .status => t.status = s.status
  | .din => t.din = s.din
  | .key => t.key = s.key
  | .half => t.half = s.half
  | .rkey => t.rkey = s.rkey
  | .dout => t.dout = s.dout
  | .fout => t.fout = s.fout
  | .rk i => t.rk.get i = s.rk.get i
  | .trace i => t.trace.get i = s.trace.get i
  | .unmapped _ => True

/-- None of the host's next n lines resets the block. -/
def noResetFor (n : Nat) (s : State) : Prop := ∀ p, HostLine.drive p ∈ s.hostProgram.take n → p.rst = false

/-- n steps of the machine. -/
def runSteps (n : Nat) (s : State) : Host.Outcome State Fault Refusal := Host.Core.run Sys2Proof.core n s

/-! ### What two runs may differ in -/

/-- The state with every internal register that no rule reads any more set to its reset value: OPL, VERL, C, D, L and R while
idle, and VERL, L and R while a KEYGEN runs (10_state R32, R33; 93 U5). -/
def State.forgetUnread (s : State) : State :=
  if s.phase = .idle then { s with opl := .enc, verl := .canonical, c := 0, d := 0, l := 0, r := 0 }
  else if s.phase = .ks ∧ s.opl = .keygen then { s with verl := .canonical, l := 0, r := 0 }
  else s

/-- The state without the operand registers and the read ports, through which the host can read them back (20_memory R53). -/
def State.forgetOperands (s : State) : State :=
  { s with din := ⟨0, 0⟩, key := ⟨0, 0⟩, half := ⟨0, 0⟩, rkey := ⟨0, 0⟩, hostRdata := 0, hostRlen := 0 }

/-- The state without any datum: the sequencer's control state, STATUS, the operand lengths and the host's coming cycles are
left (10_state R34; 45_feistel_engine R190 law 4). -/
def State.controlOnly (s : State) : State :=
  { State.reset with
    cmd := s.cmd
    status := s.status
    din := ⟨0, s.din.len⟩
    key := ⟨0, s.key.len⟩
    half := ⟨0, s.half.len⟩
    rkey := ⟨0, s.rkey.len⟩
    phase := s.phase
    idx := s.idx
    opl := s.opl
    verl := s.verl
    hostProgram := s.hostProgram
    freeCount := s.freeCount
    resetCount := s.resetCount }

end Sys2Proof.Machine
end

