-- ==== Sys2Proof/Certificates/Slice0/Obligations.lean ====
section
/-! DEFINITION. The statements for the provers. Each docstring names the rule of spec/ it follows; `log n` is
notes/assumptions/n.md. `exec i s = .next (floatPorts s t)` says that the edge leaves `t`, with the read ports carrying any
value and the counter of free values advanced. Where a statement compares two cycles or two runs and a port carries a free
value, the two agree because the model draws that value from its own counters (logs 4, 5, 6), and not by a rule of the spec. That the host's coming cycles are in the state, and that
only the step takes from them, is the model's own (log 1). -/

open Sys2Proof Sys2Proof.Machine

/-! ### Encoding -/

/-- Decoding the encoding of a well-formed instruction gives it back: no bit of an encoding is dropped (30_encoding R60, R61,
R67; 10_state R22). -/
def Obligations.DecodeOfEncodeIsTheInstruction : Prop :=
  ∀ i : Instr, i.wellFormed = true → decode (encode i) = .ok i

/-- A 16-bit word is the command (op, VER) exactly when it is `0x00V<OP>`: no other word decodes to it (30_encoding R60, R61,
R66). -/
def Obligations.CommandWordsAreExactlyTheLegalOnes : Prop :=
  ∀ (w : BitVec 16) (op : CmdOp) (ver : BitVec 4),
    decodeCommand w = .ok (op, ver) ↔ w = 0#8 ++ ver ++ op.code

/-- The access descriptor: bit [7] is `host_wr`, bit [6] `host_rd`, bits [5:0] `host_addr` (30_encoding R67). -/
def Obligations.AccessDescriptorNamesTheAccess : Prop :=
  ∀ (index : BitVec 6) (data : BitVec 64) (len : BitVec 8),
    decode (.hostAcc (0b10#2 ++ index) data len) = .ok (.wr (decodeReg index) data len) ∧
    decode (.hostAcc (0b01#2 ++ index) data len) = .ok (.rd (decodeReg index)) ∧
    decode (.hostAcc (0b11#2 ++ index) data len) = .ok (.wrRd (decodeReg index) data len) ∧
    decode (.hostAcc (0b00#2 ++ index) data len) = .ok (.nop index)

/-- The words of the table of rule R70, and descriptors of the programs of 95_test_vectors section 3, decode to what they stand
for. -/
def Obligations.WordsOfTheSpecDecode : Prop :=
  decode (.cmd16 0x0001) = .ok (.enc 0) ∧ decode (.cmd16 0x0031) = .ok (.enc 3) ∧
  decode (.cmd16 0x0022) = .ok (.dec 2) ∧ decode (.cmd16 0x0003) = .ok (.keygen 0) ∧
  decode (.cmd16 0x00F3) = .ok (.keygen 15) ∧ decode (.cmd16 0x0014) = .ok (.feval 1) ∧
  decode (.cmd16 0x0041) = .ok (.enc 4) ∧ decode (.cmd16 0x0000) = .error (.illegalOpcode 0) ∧
  decode (.cmd16 0x0105) = .error (.reservedNotZero 1) ∧ decode (.cmd16 0x0101) = .error (.reservedNotZero 1) ∧
  decode (.hostAcc 0x83 0x133457799BBCDFF1 0x40) = .ok (.wr .key 0x133457799BBCDFF1 64) ∧
  decode (.hostAcc 0x5F 0 0) = .ok (.rd (.rk 15)) ∧ decode (.hostAcc 0x60 0 0) = .ok (.rd (.trace 0)) ∧
  decode (.hostAcc 0xC3 0x2222222222222222 0x40) = .ok (.wrRd .key 0x2222222222222222 64) ∧
  decode (.hostAcc 0x48 0 0) = .ok (.rd (.unmapped 0x08)) ∧ decode (.hostAcc 0x00 0 0) = .ok (.nop 0)

/-! ### The step -/

/-- A step takes the host's next line and runs its instruction on the state with the host advanced: a driven cycle without
`rst`; no access once no line is left; for `wait` a read of STATUS that stays while BUSY = 1 (40_command_model R84; 30_encoding
R68, R69; the host's lines as a list in the state are the model's own, log 1). -/
def Obligations.StepRunsTheDecodedInstruction : Prop :=
  ∀ s : State,
    (∀ p rest, s.hostProgram = .drive p :: rest → p.rst = false →
      step s = exec (cycleInstr p) { s with hostProgram := rest }) ∧
    (s.hostProgram = [] → step s = exec (.nop 0) s) ∧
    (∀ rest, s.hostProgram = .wait :: rest → statusBusy s.status = true → step s = exec (.rd .status) s) ∧
    (∀ rest, s.hostProgram = .wait :: rest → statusBusy s.status = false →
      step s = exec (.rd .status) { s with hostProgram := rest })

/-- What the ports carry is what the decoder reads: a WR to CMD of a word that decodes to a command is that command, whatever
`host_wdata[63:16]` and `host_wlen` hold, and every other access is the one its descriptor decodes to (30_encoding R60, R61,
R67). That a WR to CMD of such a word IS the command instruction, and that both strobes on CMD stay WR_RD, is the model's own
reading (log 14). -/
def Obligations.CycleCarriesTheDecodedInstruction : Prop :=
  (∀ (w : BitVec 16) (i : Instr) (p : HostCycle), decode (.cmd16 w) = .ok i → p.wr = true → p.rd = false → p.addr = 0x00 →
    p.wdata.setWidth 16 = w → cycleInstr p = i) ∧
  (∀ (p : HostCycle) (i : Instr),
    decode (.hostAcc (BitVec.ofBool p.wr ++ BitVec.ofBool p.rd ++ p.addr) p.wdata p.wlen) = .ok i →
    (∀ j, decode (.cmd16 (p.wdata.setWidth 16)) = .ok j → ¬(p.wr = true ∧ p.rd = false ∧ p.addr = 0x00)) →
    cycleInstr p = i)

/-- An opcode-table word placed as the host's next cycle is the next instruction to run, and leaves the state as it was before
it was placed (the interface of the model, logs 2 and 14). -/
def Obligations.PlacedTableWordRunsNext : Prop :=
  ∀ (s : State) (w : Nat) (i : Instr),
    (decodeTableWord 16 w = some i → step (s.withFetchWord 16 w) = exec i s) ∧
    (decodeTableWord 8 w = some i → step (s.withFetchWord 8 w) = exec i s)

/-- Writing a legal command word to CMD is running the command, in any state (30_encoding R61; 40_command_model R80). -/
def Obligations.CmdWriteRunsItsCommand : Prop :=
  ∀ (s : State) (data : BitVec 64) (len : BitVec 8) (op : CmdOp) (ver : BitVec 4),
    decodeCommand (data.setWidth 16) = .ok (op, ver) → exec (.wr .cmd data len) s = exec (commandInstr op ver) s

/-- An edge with `rst` = 1 takes the block to the reset state whatever it was doing, also in the middle of a command: the
cycle's write is lost, a read of the cycle returns the value before the edge (70_reset_and_hazards R250, R251; 10_state R37).
That the edge leaves the host's coming lines alone is the model's own (log 1), and that a read of a register without a value
answers a next state here too is the model's choice (log 4). -/
def Obligations.ResetEdgeGivesTheResetState : Prop :=
  ∀ (s : State) (p : HostCycle) (rest : List HostLine), s.hostProgram = .drive p :: rest → p.rst = true →
    ∃ t, step s = .next t ∧
      t.cmd = 0 ∧ t.status = 0 ∧ t.din = ⟨0, 0⟩ ∧ t.key = ⟨0, 0⟩ ∧ t.half = ⟨0, 0⟩ ∧ t.rkey = ⟨0, 0⟩ ∧
      t.dout = none ∧ t.fout = none ∧ (∀ i : Round, t.rk.get i = none) ∧ (∀ i : Round, t.trace.get i = none) ∧
      t.phase = .idle ∧ t.idx = 0 ∧ t.busyPin = false ∧ t.donePin = false ∧ t.hostProgram = rest ∧
      (p.rd = true → t.hostRdata = readData (decodeReg p.addr) s ∧ t.hostRlen = readLen (decodeReg p.addr) s)

/-- Every step answers a next state: no access and no failing command stops the block (46_host_access R200; 60_exceptions R226,
R230). That a read of a register that holds no value answers a next state too is the model's choice (log 4): 10_state R36 and
46_host_access R201 let the hardware go on and a model fault, which `strictStep` reports. -/
def Obligations.StepAlwaysAnswersANextState : Prop :=
  ∀ s : State, ∃ t, step s = .next t

/-! ### The four commands -/

/-- ENC completes its issue edge: with PHASE = IDLE, DIN.LEN = KEY.LEN = 64 and VER in 0..3 the run starts, with the key and the
block loaded and nothing else changed (40_command_model R81; 43_key_schedule R143; 45_feistel_engine R185, R188). -/
def Obligations.EncStartsItsRun : Prop :=
  ∀ (s : State) (ver : BitVec 4) (v : CipherVersion),
    s.phase = .idle → s.din.len = 64 → s.key.len = 64 → versionOfTag ver.toNat = some v →
    exec (.enc ver) s = .next (floatPorts s { s with
      cmd := 0#8 ++ ver ++ 0x1#4, status := 0x0001, opl := .enc, verl := v, phase := .ks, idx := 0,
      c := hi28 (permute s.key.data Tables.PC1), d := lo28 (permute s.key.data Tables.PC1),
      l := hi32 (permute s.din.data Tables.IP), r := lo32 (permute s.din.data Tables.IP) })

/-- DEC completes its issue edge like ENC, with OPL = DEC (40_command_model R81; 45_feistel_engine R185, R189). -/
def Obligations.DecStartsItsRun : Prop :=
  ∀ (s : State) (ver : BitVec 4) (v : CipherVersion),
    s.phase = .idle → s.din.len = 64 → s.key.len = 64 → versionOfTag ver.toNat = some v →
    exec (.dec ver) s = .next (floatPorts s { s with
      cmd := 0#8 ++ ver ++ 0x2#4, status := 0x0001, opl := .dec, verl := v, phase := .ks, idx := 0,
      c := hi28 (permute s.key.data Tables.PC1), d := lo28 (permute s.key.data Tables.PC1),
      l := hi32 (permute s.din.data Tables.IP), r := lo32 (permute s.din.data Tables.IP) })

/-- KEYGEN completes its issue edge whatever VER holds: with PHASE = IDLE and KEY.LEN = 64 the run starts with the key loaded and
nothing else changed (40_command_model R81; 43_key_schedule R143, R145; 30_encoding R63). -/
def Obligations.KeygenStartsItsRun : Prop :=
  ∀ (s : State) (ver : BitVec 4), s.phase = .idle → s.key.len = 64 →
    exec (.keygen ver) s = .next (floatPorts s { s with
      cmd := 0#8 ++ ver ++ 0x3#4, status := 0x0001, opl := .keygen, phase := .ks, idx := 0,
      c := hi28 (permute s.key.data Tables.PC1), d := lo28 (permute s.key.data Tables.PC1) })

/-- FEVAL completes at its issue edge: with PHASE = IDLE, HALF.LEN = 32, RKEY.LEN = 48 and VER in 0..3, FOUT holds f of the two
operands and nothing but CMD and STATUS changes besides; for VER = 0 f is expansion, XOR, substitution and permutation, for
VER 1 to 3 it is the block's F_VARIANT (44_round_function R160, R164, R168). -/
def Obligations.FevalWritesTheRoundFunction : Prop :=
  ∀ (s : State) (ver : BitVec 4) (v : CipherVersion),
    s.phase = .idle → s.half.len = 32 → s.rkey.len = 48 → versionOfTag ver.toNat = some v →
    exec (.feval ver) s = .next (floatPorts s { s with
      cmd := 0#8 ++ ver ++ 0x4#4, status := 0x0002,
      fout := some (match v with
        | .canonical => permute (sbox (permute s.half.data Tables.E ^^^ s.rkey.data)) Tables.P
        | .altered a => Config.fVariant a s.half.data s.rkey.data) })

/-- A command that fails writes exactly CMD and STATUS at its issue edge; PHASE stays IDLE and every other register keeps its
value; the `done` output rises. A read in the same cycle returns CMD from before the edge (60_exceptions R226). -/
def Obligations.FailureWritesOnlyCmdAndStatus : Prop :=
  ∀ (s : State) (data : BitVec 64) (len : BitVec 8) (e : Failure),
    s.phase = .idle → validate (data.setWidth 16) s = .error e →
    ∃ t, exec (.wr .cmd data len) s = .next t ∧
      t = floatPorts s { s with
        cmd := data.setWidth 16
        status := 0#5 ++ e.arg.code ++ 0#1 ++ e.err.code ++ 0#1 ++ 0#1 ++ 1#1 ++ 0#1 } ∧
      t.phase = .idle ∧ t.donePin = true ∧ t.busyPin = false ∧
      exec (.wrRd .cmd data len) s = .next { t with hostRdata := s.cmd.setWidth 64, hostRlen := 16 }

/-- Which failure a command reports, on an idle block: the first operand with a wrong LEN in the order DIN, KEY (ENC, DEC), KEY
(KEYGEN), HALF, RKEY (FEVAL), and only then a VER above 3, which KEYGEN never reports (40_command_model R83; 60_exceptions R223,
R224, R227). -/
def Obligations.FailuresAreReportedInOrder : Prop :=
  ∀ (s : State) (ver : BitVec 4), s.phase = .idle →
    (∀ op ∈ [CmdOp.enc, CmdOp.dec],
      (s.din.len ≠ 64 → exec (commandInstr op ver) s =
        .next (floatPorts s { s with cmd := 0#8 ++ ver ++ op.code, status := 0x0112 })) ∧
      (s.din.len = 64 → s.key.len ≠ 64 → exec (commandInstr op ver) s =
        .next (floatPorts s { s with cmd := 0#8 ++ ver ++ op.code, status := 0x0212 })) ∧
      (s.din.len = 64 → s.key.len = 64 → 3 < ver.toNat → exec (commandInstr op ver) s =
        .next (floatPorts s { s with cmd := 0#8 ++ ver ++ op.code, status := 0x0532 }))) ∧
    (s.key.len ≠ 64 → exec (.keygen ver) s =
      .next (floatPorts s { s with cmd := 0#8 ++ ver ++ 0x3#4, status := 0x0212 })) ∧
    (s.half.len ≠ 32 → exec (.feval ver) s =
      .next (floatPorts s { s with cmd := 0#8 ++ ver ++ 0x4#4, status := 0x0312 })) ∧
    (s.half.len = 32 → s.rkey.len ≠ 48 → exec (.feval ver) s =
      .next (floatPorts s { s with cmd := 0#8 ++ ver ++ 0x4#4, status := 0x0412 })) ∧
    (s.half.len = 32 → s.rkey.len = 48 → 3 < ver.toNat → exec (.feval ver) s =
      .next (floatPorts s { s with cmd := 0#8 ++ ver ++ 0x4#4, status := 0x0532 }))

/-- ILLEGAL_COMMAND: on an idle block a CMD write records ERR = 4 exactly when RSV is not 0 or OP is 0 or 5 to 15, whatever its
VER and whatever the operand registers hold; it then records ERR_ARG = ARG_CMD, CMD holds the word, and nothing else changes
(60_exceptions R222; 30_encoding R64, R66). -/
def Obligations.IllegalWordsFailAsIllegalCommand : Prop :=
  ∀ (s : State) (data : BitVec 64) (len : BitVec 8), s.phase = .idle →
    ((data.extractLsb' 8 8 ≠ 0 ∨ data.extractLsb' 0 4 = 0 ∨ 5 ≤ (data.extractLsb' 0 4).toNat) →
      ∃ t, exec (.wr .cmd data len) s = .next t ∧
        t = floatPorts s { s with cmd := data.setWidth 16, status := 0x0642 } ∧
        exec (.wrRd .cmd data len) s = .next { t with hostRdata := s.cmd.setWidth 64, hostRlen := 16 }) ∧
    (¬(data.extractLsb' 8 8 ≠ 0 ∨ data.extractLsb' 0 4 = 0 ∨ 5 ≤ (data.extractLsb' 0 4).toNat) →
      ∃ t r, exec (.wr .cmd data len) s = .next t ∧ exec (.wrRd .cmd data len) s = .next r ∧
        statusErr t.status ≠ 4 ∧ statusErr r.status ≠ 4)

/-- A CMD write while PHASE is not IDLE changes nothing but STATUS.OVR: the edge leaves what a cycle without access leaves, with
OVR set, and CMD keeps the running command's word (40_command_model R82). -/
def Obligations.BusyCmdWriteOnlySetsOverrun : Prop :=
  ∀ (s : State) (data : BitVec 64) (len : BitVec 8), s.phase ≠ .idle →
    ∃ u, exec (.nop 0) s = .next u ∧ u.cmd = s.cmd ∧
      exec (.wr .cmd data len) s = .next { u with status := u.status ||| 0x0004 } ∧
      (∃ r, exec (.rd .cmd) s = .next r ∧
        exec (.wrRd .cmd data len) s = .next { r with status := u.status ||| 0x0004 }) ∧
      ∀ (op : CmdOp) (ver : BitVec 4),
        exec (commandInstr op ver) s = .next { u with status := u.status ||| 0x0004 }

/-- The frame of the command cycles, idle or busy, started, failed or dropped: no operand register and no coming host cycle
changes; on an idle block DOUT, RK and TRACE do not change at the issue edge, only FEVAL changes FOUT, FEVAL leaves the sequencer
and the datapath registers alone, and KEYGEN leaves L, R and VERL alone (20_memory R41; 40_command_model R81, R82;
43_key_schedule R145; 44_round_function R168; 60_exceptions R226). That the host's coming cycles are in the state, and that no
command changes them, is the model's own (log 1). -/
def Obligations.CommandCycleFrame : Prop :=
  ∀ (s t : State) (op : CmdOp) (ver : BitVec 4), exec (commandInstr op ver) s = .next t →
    t.din = s.din ∧ t.key = s.key ∧ t.half = s.half ∧ t.rkey = s.rkey ∧ t.hostProgram = s.hostProgram ∧
    (op ≠ .feval → t.fout = s.fout) ∧
    (s.phase = .idle → t.dout = s.dout ∧ t.rk = s.rk ∧ t.trace = s.trace) ∧
    (s.phase = .idle → op = .feval → t.phase = .idle ∧ t.idx = s.idx ∧ t.opl = s.opl ∧ t.verl = s.verl ∧
      t.c = s.c ∧ t.d = s.d ∧ t.l = s.l ∧ t.r = s.r) ∧
    (s.phase = .idle → op = .keygen → t.verl = s.verl ∧ t.l = s.l ∧ t.r = s.r)

/-! ### Host accesses -/

/-- WR to an operand register stores the data bits below the register's width and LEN verbatim, busy or idle, and changes
nothing else: the edge leaves what a cycle without access leaves, with that register written (46_host_access R200; 20_memory R45,
R53). -/
def Obligations.WriteStoresDataAndLength : Prop :=
  ∀ (s : State) (data : BitVec 64) (len : BitVec 8), ∃ u, exec (.nop 0) s = .next u ∧
    exec (.wr .din data len) s = .next { u with din := ⟨data, len⟩ } ∧
    exec (.wr .key data len) s = .next { u with key := ⟨data, len⟩ } ∧
    exec (.wr .half data len) s = .next { u with half := ⟨data.extractLsb' 0 32, len⟩ } ∧
    exec (.wr .rkey data len) s = .next { u with rkey := ⟨data.extractLsb' 0 48, len⟩ }

/-- A write to a read-only register or to an unmapped index is ignored: the cycle is one without access (20_memory R44;
46_host_access R200). -/
def Obligations.ReadOnlyAndUnmappedWritesAreIgnored : Prop :=
  ∀ (s : State) (data : BitVec 64) (len : BitVec 8) (reg : Reg),
    reg ∉ [Reg.cmd, Reg.din, Reg.key, Reg.half, Reg.rkey] → exec (.wr reg data len) s = exec (.nop 0) s

/-- RD drives the register's value from before the edge, zero-extended, with its length tag, and changes nothing else: the edge
leaves what a cycle without access leaves. This holds for every register that holds a value and is not being written by the
running command (46_host_access R201, R202; 20_memory R47). -/
def Obligations.ReadDrivesTheHeldValue : Prop :=
  ∀ s : State, ∃ u, exec (.nop 0) s = .next u ∧
    exec (.rd .cmd) s = .next { u with hostRdata := s.cmd.setWidth 64, hostRlen := 16 } ∧
    exec (.rd .status) s = .next { u with hostRdata := s.status.setWidth 64, hostRlen := 16 } ∧
    exec (.rd .din) s = .next { u with hostRdata := s.din.data, hostRlen := s.din.len } ∧
    exec (.rd .key) s = .next { u with hostRdata := s.key.data, hostRlen := s.key.len } ∧
    exec (.rd .half) s = .next { u with hostRdata := s.half.data.setWidth 64, hostRlen := s.half.len } ∧
    exec (.rd .rkey) s = .next { u with hostRdata := s.rkey.data.setWidth 64, hostRlen := s.rkey.len } ∧
    (∀ x, s.fout = some x → exec (.rd .fout) s = .next { u with hostRdata := x.setWidth 64, hostRlen := 32 }) ∧
    (∀ x, s.dout = some x → (statusBusy s.status = false ∨ s.opl = .keygen) →
      exec (.rd .dout) s = .next { u with hostRdata := x, hostRlen := 64 }) ∧
    (∀ i x, s.rk.get i = some x → statusBusy s.status = false →
      exec (.rd (.rk i)) s = .next { u with hostRdata := x.setWidth 64, hostRlen := 48 }) ∧
    (∀ i x, s.trace.get i = some x → (statusBusy s.status = false ∨ s.opl = .keygen) →
      exec (.rd (.trace i)) s = .next { u with hostRdata := x, hostRlen := 64 }) ∧
    (∀ index, exec (.rd (.unmapped index)) s = .next { u with hostRdata := 0, hostRlen := 0 })

/-- A read of a register that holds no value, or that the running command writes, completes too: the edge leaves what a cycle
without access leaves, `host_rlen` is the register's width and `host_rdata` is zero above it; nothing is said of the bits below
(46_host_access R201, R202, R203; 10_state R36; that the read runs and does not fault is the model's choice, log 4; `strictStep`
reports it, in StrictStepFaultsReadsOfNoValue). -/
def Obligations.UnreliableReadStillCompletes : Prop :=
  ∀ (s : State) (i : Round), ∃ u, exec (.nop 0) s = .next u ∧
    (∃ x : BitVec 64, exec (.rd .dout) s = .next { u with hostRdata := x, hostRlen := 64 }) ∧
    (∃ x : BitVec 32, exec (.rd .fout) s = .next { u with hostRdata := x.setWidth 64, hostRlen := 32 }) ∧
    (∃ x : BitVec 48, exec (.rd (.rk i)) s = .next { u with hostRdata := x.setWidth 64, hostRlen := 48 }) ∧
    (∃ x : BitVec 64, exec (.rd (.trace i)) s = .next { u with hostRdata := x, hostRlen := 64 })

/-- WR and RD in one cycle act on the one index: the edge leaves what the WR leaves, and the read ports carry what the RD drives,
the value from before the edge (46_host_access R204). -/
def Obligations.WriteAndReadReturnsTheOldValue : Prop :=
  ∀ (s : State) (reg : Reg) (data : BitVec 64) (len : BitVec 8), ∃ w r,
    exec (.wr reg data len) s = .next w ∧ exec (.rd reg) s = .next r ∧
    exec (.wrRd reg data len) s = .next { w with hostRdata := r.hostRdata, hostRlen := r.hostRlen }

/-- A cycle without access on an idle block changes nothing but the read ports, and the index it carries is ignored in any state
(46_host_access R205; 60_exceptions R241). -/
def Obligations.IdleBlockHoldsItsState : Prop :=
  ∀ (s : State) (index : BitVec 6),
    (s.phase = .idle → exec (.nop index) s = .next (floatPorts s s)) ∧ exec (.nop index) s = exec (.nop 0) s

/-- Only the host's own writes change the operand registers: an instruction that changes DIN, KEY, HALF or RKEY is a WR of that
register (20_memory R41, R53; 10_state R24). -/
def Obligations.OnlyHostWritesChangeOperands : Prop :=
  ∀ (s t : State) (i : Instr), exec i s = .next t →
    (t.din ≠ s.din → ∃ data len, i = .wr .din data len ∨ i = .wrRd .din data len) ∧
    (t.key ≠ s.key → ∃ data len, i = .wr .key data len ∨ i = .wrRd .key data len) ∧
    (t.half ≠ s.half → ∃ data len, i = .wr .half data len ∨ i = .wrRd .half data len) ∧
    (t.rkey ≠ s.rkey → ∃ data len, i = .wr .rkey data len ∨ i = .wrRd .rkey data len)

/-! ### The sequencer -/

/-- The key-schedule step, in a cycle without access: RK[IDX] takes the compressed rotated halves, C and D rotate, and
(PHASE, IDX) goes on to the next index, to the first round, or for KEYGEN to completion (40_command_model R85, R86;
43_key_schedule R144). -/
def Obligations.KeyScheduleStepWritesOneKey : Prop :=
  ∀ (s : State) (index : BitVec 6) (n : Nat), s.phase = .ks → n = Tables.SHIFTS.get s.idx →
    (s.idx.val < 15 → exec (.nop index) s = .next (floatPorts s { s with
      rk := s.rk.set s.idx (some (permute (rotateBits s.c n ++ rotateBits s.d n) Tables.PC2))
      c := rotateBits s.c n, d := rotateBits s.d n, idx := s.idx + 1 })) ∧
    (s.idx = 15 → s.opl ≠ .keygen → exec (.nop index) s = .next (floatPorts s { s with
      rk := s.rk.set s.idx (some (permute (rotateBits s.c n ++ rotateBits s.d n) Tables.PC2))
      c := rotateBits s.c n, d := rotateBits s.d n, phase := .rnd, idx := 0 })) ∧
    (s.idx = 15 → s.opl = .keygen → exec (.nop index) s = .next (floatPorts s { s with
      rk := s.rk.set s.idx (some (permute (rotateBits s.c n ++ rotateBits s.d n) Tables.PC2))
      c := rotateBits s.c n, d := rotateBits s.d n, phase := .idle, idx := 0
      status := (s.status &&& 0xFFFE) ||| 0x0002 }))

/-- The round step, in a cycle without access: the round key is RK[IDX] for ENC and RK[15 - IDX] for DEC, TRACE[IDX] takes
L' ++ R', and after round 15 DOUT takes FP of R' ++ L' and the command completes (40_command_model R85, R86; 45_feistel_engine
R186, R187). -/
def Obligations.RoundStepFollowsTheRoundTransition : Prop :=
  ∀ (s : State) (index : BitVec 6) (k : RoundKey) (r' : Half), s.phase = .rnd →
    (s.opl = .enc ∧ s.rk.get s.idx = some k ∨ s.opl = .dec ∧ s.rk.get (15 - s.idx) = some k) →
    r' = s.l ^^^ (match s.verl with
      | .canonical => canonicalF s.r k
      | .altered a => Config.fVariant a s.r k) →
    (s.idx.val < 15 → exec (.nop index) s = .next (floatPorts s { s with
      trace := s.trace.set s.idx (some (s.r ++ r')), l := s.r, r := r', idx := s.idx + 1 })) ∧
    (s.idx = 15 → exec (.nop index) s = .next (floatPorts s { s with
      trace := s.trace.set s.idx (some (s.r ++ r')), l := s.r, r := r', phase := .idle, idx := 0
      dout := some (permute (r' ++ s.r) Tables.FP), status := (s.status &&& 0xFFFE) ||| 0x0002 }))

/-- ENC computes the functional `encrypt`: from any idle state with its operands ready, whatever the host does in the next 32
cycles short of a reset, the run is busy for 32 cycles, 16 key-schedule steps and 16 rounds in order, and then ends with no
error, DOUT and TRACE the functional result of the operands held at issue, RK the key set, and FOUT and CMD unchanged since the
issue (40_command_model R87, R89; 45_feistel_engine R188; the latency is the spec's, log 12). -/
def Obligations.EncRunComputesEncrypt : Prop :=
  ∀ (s s1 : State) (ver : BitVec 4) (v : CipherVersion),
    s.phase = .idle → s.din.len = 64 → s.key.len = 64 → versionOfTag ver.toNat = some v → noResetFor 32 s →
    exec (.enc ver) s = .next s1 →
    (∀ n, n < 32 → ∃ t, runSteps n s1 = .next t ∧ statusBusy t.status = true ∧
      t.phase = (if n < 16 then .ks else .rnd) ∧ t.idx.val = n % 16) ∧
    ∃ t, runSteps 32 s1 = .next t ∧ t.phase = .idle ∧ statusBusy t.status = false ∧ statusDone t.status = true ∧
      statusErr t.status = 0 ∧ statusErrArg t.status = 0 ∧
      t.dout = some (cipher Config.fVariant false v s.din.data s.key.data) ∧
      t.trace = (cipherTrace Config.fVariant false v s.din.data s.key.data).map some ∧
      t.rk = (roundKeys s.key.data).map some ∧ t.fout = s.fout ∧ t.cmd = s1.cmd

/-- DEC computes the functional `decrypt` in the same way (40_command_model R87, R89; 45_feistel_engine R189; log 12). -/
def Obligations.DecRunComputesDecrypt : Prop :=
  ∀ (s s1 : State) (ver : BitVec 4) (v : CipherVersion),
    s.phase = .idle → s.din.len = 64 → s.key.len = 64 → versionOfTag ver.toNat = some v → noResetFor 32 s →
    exec (.dec ver) s = .next s1 →
    (∀ n, n < 32 → ∃ t, runSteps n s1 = .next t ∧ statusBusy t.status = true ∧
      t.phase = (if n < 16 then .ks else .rnd) ∧ t.idx.val = n % 16) ∧
    ∃ t, runSteps 32 s1 = .next t ∧ t.phase = .idle ∧ statusBusy t.status = false ∧ statusDone t.status = true ∧
      statusErr t.status = 0 ∧ statusErrArg t.status = 0 ∧
      t.dout = some (cipher Config.fVariant true v s.din.data s.key.data) ∧
      t.trace = (cipherTrace Config.fVariant true v s.din.data s.key.data).map some ∧
      t.rk = (roundKeys s.key.data).map some ∧ t.fout = s.fout ∧ t.cmd = s1.cmd

/-- KEYGEN computes `generate_round_keys` in 16 edges, whatever the host does short of a reset, and leaves DOUT, FOUT and TRACE
alone (40_command_model R87, R89; 43_key_schedule R145; log 12). -/
def Obligations.KeygenRunComputesTheRoundKeys : Prop :=
  ∀ (s s1 : State) (ver : BitVec 4), s.phase = .idle → s.key.len = 64 → noResetFor 16 s →
    exec (.keygen ver) s = .next s1 →
    (∀ n, n < 16 → ∃ t, runSteps n s1 = .next t ∧ statusBusy t.status = true ∧ t.phase = .ks ∧ t.idx.val = n) ∧
    ∃ t, runSteps 16 s1 = .next t ∧ t.phase = .idle ∧ statusBusy t.status = false ∧ statusDone t.status = true ∧
      statusErr t.status = 0 ∧ statusErrArg t.status = 0 ∧
      t.rk = (roundKeys s.key.data).map some ∧ t.dout = s.dout ∧ t.trace = s.trace ∧ t.fout = s.fout ∧ t.cmd = s1.cmd

/-! ### Invariants and whole-machine rules -/

/-- The invariant holds at reset (10_state R26, R36, R37). -/
def Obligations.ResetStateIsGood : Prop := State.reset.Inv

/-- Every step keeps the invariant: BUSY = 1 exactly when a command runs, BUSY and DONE never both 1, no error while busy, only
the defined (ERR, ERR_ARG) pairs, reserved bits 0, IDX = 0 while idle, CMD the running command's word, and the result files whole
or empty (10_state R25, R26, R30 to R32, R36; 60_exceptions R220, R221). -/
def Obligations.EveryStepKeepsTheInvariant : Prop :=
  ∀ s t : State, s.Inv → step s = .next t → t.Inv

/-- STATUS and CMD change only by the events that write them: STATUS by a CMD write or at the completion of a run, CMD by a CMD
write on an idle block, which then holds its word (10_state R25, R27; 40_command_model R82). -/
def Obligations.StatusAndCmdChangeOnlyByTheirEvents : Prop :=
  ∀ (s t : State) (i : Instr), exec i s = .next t →
    (t.status ≠ s.status →
      (∃ op ver, i = commandInstr op ver) ∨ (∃ data len, i = .wr .cmd data len ∨ i = .wrRd .cmd data len) ∨
      (s.phase ≠ .idle ∧ t.phase = .idle ∧ s.idx = 15)) ∧
    (t.cmd ≠ s.cmd → s.phase = .idle ∧
      ((∃ op ver, i = commandInstr op ver ∧ t.cmd = commandWord op ver) ∨
        ∃ data len, (i = .wr .cmd data len ∨ i = .wrRd .cmd data len) ∧ t.cmd = data.setWidth 16))

/-- Result registers change only when the running command writes them: DOUT at round 15, RK[i] at the key-schedule step i,
TRACE[i] at round i, FOUT at the issue edge of an FEVAL (10_state R29, R30, R31; 43_key_schedule R144; 45_feistel_engine R186,
R187). -/
def Obligations.ResultsChangeOnlyAtTheirStep : Prop :=
  ∀ (s t : State) (i : Instr), exec i s = .next t →
    (t.dout ≠ s.dout → s.phase = .rnd ∧ s.idx = 15) ∧
    (∀ j : Round, t.rk.get j ≠ s.rk.get j → s.phase = .ks ∧ s.idx = j) ∧
    (∀ j : Round, t.trace.get j ≠ s.trace.get j → s.phase = .rnd ∧ s.idx = j) ∧
    (t.fout ≠ s.fout → s.phase = .idle ∧
      ((∃ ver, i = .feval ver) ∨ ∃ data len ver, decodeCommand (data.setWidth 16) = .ok (.feval, ver) ∧
        (i = .wr .cmd data len ∨ i = .wrRd .cmd data len)))

/-- The internal registers that hold no meaning while idle (OPL, VERL, C, D, L, R) and while a KEYGEN runs (VERL, L, R) never
reach the host or a later result: from a state that meets the invariant, two states that differ only there step to states that
differ only there (while idle: 10_state R32, R33 and 93_implementation_defined U5; while a KEYGEN runs: 40_command_model R81 and
R85, 43_key_schedule R144). The read ports are among what is compared: where a port carries a free value, in a cycle with no
read, in a read of a register that holds no value or of one that the running command writes, the two agree by the model's
choice, which draws the value from its own counters (logs 4, 5, 6). -/
def Obligations.UnreadRegistersNeverShow : Prop :=
  ∀ s s' : State, s.Inv → s.forgetUnread = s'.forgetUnread →
    ∃ t t', step s = .next t ∧ step s' = .next t' ∧ t.forgetUnread = t'.forgetUnread

/-- While a command runs, the operand registers cannot change it: two busy states that differ only in DIN, KEY, HALF and RKEY
step to states that differ only there and in what the host reads back of them (20_memory R53; 70_reset_and_hazards R257). -/
def Obligations.RunningCommandIgnoresOperands : Prop :=
  ∀ s s' : State, s.phase ≠ .idle → s.forgetOperands = s'.forgetOperands →
    ∃ t t', step s = .next t ∧ step s' = .next t' ∧ t.forgetOperands = t'.forgetOperands

/-- No branching on data: what a step does to the control state, STATUS, CMD and the operand lengths depends on those and on the
host alone, never on an operand's data, a key half, a round value or a result (10_state R34; 45_feistel_engine R190 law 4). -/
def Obligations.ControlNeverDependsOnData : Prop :=
  ∀ s s' : State, s.controlOnly = s'.controlOnly →
    ∃ t t', step s = .next t ∧ step s' = .next t' ∧ t.controlOnly = t'.controlOnly

/-! ### The functional layer -/

/-- `xor`: bitwise on equal widths, `LengthMismatch` otherwise; `xor(a, a)` is zero, `xor(a, 0)` is a, and it is commutative and
associative; with the example of the rule (41_primitives R100). -/
def Obligations.XorIsBitwiseOnEqualWidths : Prop :=
  (∀ a b : BitString, a.width ≠ b.width → callXor a b = .error .lengthMismatch) ∧
  (∀ (w : Nat) (a b : BitVec w), ∃ c : BitVec w, callXor ⟨w, a⟩ ⟨w, b⟩ = .ok ⟨w, c⟩ ∧
    ∀ p, 1 ≤ p → p ≤ w → bitAt c p = (bitAt a p ^^ bitAt b p)) ∧
  (∀ (w : Nat) (a : BitVec w), callXor ⟨w, a⟩ ⟨w, a⟩ = .ok ⟨w, 0⟩ ∧ callXor ⟨w, a⟩ ⟨w, 0⟩ = .ok ⟨w, a⟩) ∧
  (∀ (w : Nat) (a b c : BitVec w), callXor ⟨w, a⟩ ⟨w, b⟩ = callXor ⟨w, b⟩ ⟨w, a⟩ ∧
    (callXor ⟨w, a⟩ ⟨w, b⟩ >>= (callXor · ⟨w, c⟩)) = (callXor ⟨w, b⟩ ⟨w, c⟩ >>= (callXor ⟨w, a⟩ ·))) ∧
  callXor ⟨16, 0x0F0F⟩ ⟨16, 0x00FF⟩ = .ok ⟨16, 0x0FF0⟩

/-- `permute`: output position i is input position T[i], for a table of any width (41_primitives R101). -/
def Obligations.PermuteCopiesTheTablesPositions : Prop :=
  ∀ (w n : Nat) (s : BitVec w) (T : Vector Nat n) (i : Nat) (h : i < n),
    bitAt (permute s T) (i + 1) = bitAt s T[i]

/-- `permute` succeeds exactly where the input meets the table's precondition, for a table of any length: the table's own length
for a straight permutation, which lists each position from 1 to its length; at least every entry for any other table; and it
then gives the permuted string, else `InvalidLength`. For the block's tables that is 64 for IP and FP and 32 for P; at least 32
for E, 63 for PC1 and 56 for PC2, and 47 for E_INV (41_primitives R101, R102; 44_round_function R165). That a table with an
entry 0, which is no position, fails too is the model's choice (log 17). -/
def Obligations.PermuteChecksItsPrecondition : Prop :=
  (∀ (s : BitString) (n : Nat) (T : Vector Nat n),
    ((∀ p, 1 ≤ p → p ≤ n → p ∈ T.toList) → (s.width = n ↔ ∃ t, callPermute s T = .ok t)) ∧
    (¬(∀ p, 1 ≤ p → p ≤ n → p ∈ T.toList) → 0 ∉ T.toList →
      ((∀ p ∈ T.toList, p ≤ s.width) ↔ ∃ t, callPermute s T = .ok t)) ∧
    (0 ∈ T.toList → callPermute s T = .error .invalidLength) ∧
    (∀ t, callPermute s T = .ok t → t = ⟨n, permute s.bits T⟩) ∧
    (∀ e, callPermute s T = .error e → e = .invalidLength)) ∧
  (∀ s : BitString,
    (s.width = 64 ↔ ∃ t, callPermute s Tables.IP = .ok t) ∧ (s.width = 64 ↔ ∃ t, callPermute s Tables.FP = .ok t) ∧
    (s.width = 32 ↔ ∃ t, callPermute s Tables.P = .ok t) ∧ (32 ≤ s.width ↔ ∃ t, callPermute s Tables.E = .ok t) ∧
    (63 ≤ s.width ↔ ∃ t, callPermute s Tables.PC1 = .ok t) ∧ (56 ≤ s.width ↔ ∃ t, callPermute s Tables.PC2 = .ok t) ∧
    (47 ≤ s.width ↔ ∃ t, callPermute s Tables.E_INV = .ok t))

/-- `rotate_left(s, n)` for n below the width: position p is position ((p - 1 + n) mod W) + 1 of s; n = 0 returns s; any other n
is refused; with the examples of the rule (41_primitives R103). -/
def Obligations.RotateLeftIsCyclic : Prop :=
  (∀ (w n : Nat) (s : BitVec w), n < w → ∃ t : BitVec w, callRotateLeft ⟨w, s⟩ n = some ⟨w, t⟩ ∧
    ∀ p, 1 ≤ p → p ≤ w → bitAt t p = bitAt s ((p - 1 + n) % w + 1)) ∧
  (∀ (w n : Nat) (s : BitVec w), w ≤ n → callRotateLeft ⟨w, s⟩ n = none) ∧
  (∀ (w : Nat) (s : BitVec w), 0 < w → callRotateLeft ⟨w, s⟩ 0 = some ⟨w, s⟩) ∧
  callRotateLeft ⟨28, 0x8000001⟩ 1 = some ⟨28, 0x0000003⟩ ∧ callRotateLeft ⟨28, 0x8000001⟩ 2 = some ⟨28, 0x0000006⟩

/-- `to_hex`: one lowercase digit for each four positions, in order, when the length is a multiple of 4, else `InvalidLength`;
with the example of the rule (41_primitives R106). -/
def Obligations.ToHexRendersFourPositionsEach : Prop :=
  (∀ s : BitString, s.width % 4 ≠ 0 → callToHex s = .error .invalidLength) ∧
  (∀ (n : Nat) (b : BitVec (4 * n)), ∃ digits, callToHex ⟨4 * n, b⟩ = .ok digits ∧ digits.length = n ∧
    ∀ j, j < n → digits[j]? =
      ['0', '1', '2', '3', '4', '5', '6', '7', '8', '9', 'a', 'b', 'c', 'd', 'e', 'f'][(b.extractLsb' (4 * (n - 1 - j)) 4).toNat]?) ∧
  callToHex ⟨64, 0x0123456789ABCDEF⟩ =
    .ok ['0', '1', '2', '3', '4', '5', '6', '7', '8', '9', 'a', 'b', 'c', 'd', 'e', 'f']

/-- The expansion: output position 6j - 5 + k of group j copies input position 4j - 4 + k, where 0 means 32 and 33 means 1, with
the two examples of the rule (44_round_function R161; 42_tables R123). -/
def Obligations.ExpansionCopiesNeighbours : Prop :=
  (∀ (r : Half) (j k : Nat), 1 ≤ j → j ≤ 8 → k ≤ 5 →
    bitAt (permute r Tables.E) (6 * j - 5 + k) =
      bitAt r (if 4 * j - 4 + k = 0 then 32 else if 4 * j - 4 + k = 33 then 1 else 4 * j - 4 + k)) ∧
  permute (0x80000000 : Half) Tables.E = 0x400000000001 ∧ permute (0x00000001 : Half) Tables.E = 0x800000000002

/-- The substitution: output positions 4j - 3 to 4j hold S_j at the row of the group's outer two bits and the column of its inner
four, for each of the eight groups j (44_round_function R162). -/
def Obligations.SubstitutionUsesRowAndColumn : Prop :=
  ∀ (x : RoundKey) (j : Fin 8) (row : Fin 4) (col : Fin 16),
    row.val = 2 * (bitAt x (6 * j.val + 1)).toNat + (bitAt x (6 * j.val + 6)).toNat →
    col.val = 8 * (bitAt x (6 * j.val + 2)).toNat + 4 * (bitAt x (6 * j.val + 3)).toNat
      + 2 * (bitAt x (6 * j.val + 4)).toNat + (bitAt x (6 * j.val + 5)).toNat →
    (sbox x).extractLsb' (28 - 4 * j.val) 4 = ((Tables.SBOX.get j).get row).get col

/-- The final permutation inverts the initial one, both ways (42_tables R122). -/
def Obligations.FinalPermutationInvertsInitial : Prop :=
  ∀ b : Block, permute (permute b Tables.IP) Tables.FP = b ∧ permute (permute b Tables.FP) Tables.IP = b

/-- E_INV is a left inverse of the expansion (44_round_function R165). -/
def Obligations.ReferenceInverseUndoesExpansion : Prop :=
  ∀ r : Half, permute (permute r Tables.E) Tables.E_INV = r

/-- Cumulative rotation: after n rounds each key half is its start rotated left by the sum of the first n amounts, with the totals
listed, and after 16 rounds it is back (43_key_schedule R141). -/
def Obligations.KeyHalvesRotateCumulatively : Prop :=
  ∀ (master : Block) (n total : Nat),
    [0, 1, 2, 4, 6, 8, 10, 12, 14, 15, 17, 19, 21, 23, 25, 27, 28][n]? = some total →
    total = (Tables.SHIFTS.toList.take n).sum ∧
    (keyHalves master n).1 = (keyHalves master 0).1.rotateLeft total ∧
    (keyHalves master n).2 = (keyHalves master 0).2.rotateLeft total ∧
    keyHalves master 16 = keyHalves master 0

/-- The parity positions 8, 16, ..., 64 of the master key do not affect any round key (43_key_schedule R142). -/
def Obligations.ParityPositionsDoNotMatter : Prop :=
  ∀ k k' : Block, k &&& 0xFEFEFEFEFEFEFEFE = k' &&& 0xFEFEFEFEFEFEFEFE → roundKeys k = roundKeys k'

/-- A key whose C_0 and D_0 are each all zeros or all ones gives 16 equal round keys; then the reversed key order is the forward
one, so DEC computes what ENC does (43_key_schedule R145; 45_feistel_engine R190 law 2). -/
def Obligations.ConstantHalvesGiveEqualRoundKeys : Prop :=
  ∀ k : Block,
    (hi28 (permute k Tables.PC1) = 0 ∨ hi28 (permute k Tables.PC1) = BitVec.allOnes 28) →
    (lo28 (permute k Tables.PC1) = 0 ∨ lo28 (permute k Tables.PC1) = BitVec.allOnes 28) →
    (∀ i j : Round, (roundKeys k).get i = (roundKeys k).get j) ∧
    ∀ (fv : VariantFamily) (v : CipherVersion) (b : Block), cipher fv true v b k = cipher fv false v b k

/-- The round trip of the engine for any round function at all: a second run with the keys reversed undoes the first
(45_feistel_engine R190 law 1). -/
def Obligations.FeistelRoundTrip : Prop :=
  ∀ (f : Half → RoundKey → Half) (ks : Vector RoundKey 16) (b : Block),
    feistelOut f (feistelOut f b ks) (reverseKeys ks) = b

/-- `decrypt(encrypt(p, k, v), k, v) = p` for every 64-bit p and k, every version tag of the enumeration and every F_VARIANT
(45_feistel_engine R190 law 1). -/
def Obligations.DecryptRecoversThePlaintext : Prop :=
  ∀ (fv : VariantFamily) (p k : Block) (tag : Nat), tag ≤ 3 →
    ∃ c trace trace', callEncrypt fv ⟨64, p⟩ ⟨64, k⟩ tag = .ok (c, trace) ∧
      callDecrypt fv ⟨64, c⟩ ⟨64, k⟩ tag = .ok (p, trace')

/-- The trace of decrypting a ciphertext mirrors that of encrypting: entry i is the encryption's entry 14 - i with its halves
exchanged, and the last is IP of the plaintext with its halves exchanged (45_feistel_engine R189). -/
def Obligations.DecryptTraceMirrorsEncryptTrace : Prop :=
  ∀ (fv : VariantFamily) (v : CipherVersion) (p k : Block),
    (∀ i j : Round, i.val + j.val = 14 →
      (cipherTrace fv true v (cipher fv false v p k) k).get i =
        lo32 ((cipherTrace fv false v p k).get j) ++ hi32 ((cipherTrace fv false v p k).get j)) ∧
    (cipherTrace fv true v (cipher fv false v p k) k).get 15 =
      lo32 (permute p Tables.IP) ++ hi32 (permute p Tables.IP)

/-- Under the reference F_VARIANT, version 1 under any key is canonical DES under the all-zero key: both results of `encrypt`
agree, the ciphertext and the trace (45_feistel_engine R183, R190 law 3; 44_round_function R165). -/
def Obligations.ReferenceVersionOneIgnoresTheKey : Prop :=
  ∀ p k : Block,
    cipher variantRef false (.altered .v1) p k = cipher variantRef false .canonical p 0 ∧
    cipherTrace variantRef false (.altered .v1) p k = cipherTrace variantRef false .canonical p 0 ∧
    callEncrypt variantRef ⟨64, p⟩ ⟨64, k⟩ 1 = callEncrypt variantRef ⟨64, p⟩ ⟨64, 0⟩ 0

/-- The hardware fails exactly as the functional layer does. Operand registers whose LEN a driver wrote for bit strings of any
length, whatever 64 bits it wrote beside it: ENC and DEC record INVALID_LENGTH, UNKNOWN_VERSION or no error as `encrypt` and
`decrypt` fail or return, KEYGEN as `generate_round_keys`, FEVAL as `f` (60_exceptions R231; 46_host_access R206). -/
def Obligations.HardwareFailsAsTheFunctionsDo : Prop :=
  ∀ (s : State) (a b : BitString) (ver : BitVec 4) (fv : VariantFamily), s.phase = .idle →
    (s.din.len = boundaryLen a.width → s.key.len = boundaryLen b.width →
      (∃ t, exec (.enc ver) s = .next t ∧
        (statusErr t.status = 1 ↔ callEncrypt fv a b ver.toNat = .error .invalidLength) ∧
        (statusErr t.status = 3 ↔ callEncrypt fv a b ver.toNat = .error .unknownVersion) ∧
        (statusErr t.status = 0 ↔ ∃ x, callEncrypt fv a b ver.toNat = .ok x)) ∧
      (∃ t, exec (.dec ver) s = .next t ∧
        (statusErr t.status = 1 ↔ callDecrypt fv a b ver.toNat = .error .invalidLength) ∧
        (statusErr t.status = 3 ↔ callDecrypt fv a b ver.toNat = .error .unknownVersion) ∧
        (statusErr t.status = 0 ↔ ∃ x, callDecrypt fv a b ver.toNat = .ok x))) ∧
    (s.key.len = boundaryLen b.width →
      ∃ t, exec (.keygen ver) s = .next t ∧
        (statusErr t.status = 1 ↔ callGenerateRoundKeys b = .error .invalidLength) ∧
        (statusErr t.status = 0 ↔ ∃ x, callGenerateRoundKeys b = .ok x)) ∧
    (s.half.len = boundaryLen a.width → s.rkey.len = boundaryLen b.width →
      ∃ t, exec (.feval ver) s = .next t ∧
        (statusErr t.status = 1 ↔ callF fv a b ver.toNat = .error .invalidLength) ∧
        (statusErr t.status = 3 ↔ callF fv a b ver.toNat = .error .unknownVersion) ∧
        (statusErr t.status = 0 ↔ ∃ x, callF fv a b ver.toNat = .ok x))

/-! ### Repeated reads, and reads of no value -/

/-- Reads are idempotent: two reads of one register with no edge that changes it between them agree, whatever instruction the
edge between them runs; only a register that the running command writes is left out (20_memory R47; 46_host_access R201, R202).
Two reads in a row of an idle block agree. That a read of a register that holds no value runs at all, with a pattern that stays
until a write or a reset, is the model's choice (log 4): 10_state R36 and R201 let the hardware go on and a model fault. -/
def Obligations.ReadsWithNoChangingEdgeAgree : Prop :=
  (∀ (s t : State) (i : Instr) (reg : Reg), exec i s = .next t → unchanged reg s t →
    runningWrites reg s = false → runningWrites reg t = false →
    ∃ u v, exec (.rd reg) s = .next u ∧ exec (.rd reg) t = .next v ∧ v.hostRdata = u.hostRdata ∧ v.hostRlen = u.hostRlen) ∧
  (∀ (s : State) (reg : Reg), s.phase = .idle → statusBusy s.status = false →
    ∃ u v, exec (.rd reg) s = .next u ∧ exec (.rd reg) u = .next v ∧ v.hostRdata = u.hostRdata ∧ v.hostRlen = u.hostRlen)

/-- The strict step is the step under the check of rule R36: it reports as an error a cycle, reset or not, that reads DOUT, FOUT,
RK[i] or TRACE[i] while the register holds no value and no running command writes it, and answers what the step answers
everywhere else (10_state R36; 46_host_access R201; that a read of a register being written is no error is R202, log 5). That
the check stands beside the machine's step and does not stop it is the model's choice (log 4). -/
def Obligations.StrictStepFaultsReadsOfNoValue : Prop :=
  (∀ (s : State) (p : HostCycle) (rest : List HostLine), s.hostProgram = .drive p :: rest →
    (p.rd = true →
      (decodeReg p.addr = .fout → s.fout = none → strictStep s = .error .fout) ∧
      (decodeReg p.addr = .dout → s.dout = none → (statusBusy s.status = false ∨ s.opl = .keygen) →
        strictStep s = .error .dout) ∧
      (∀ i, decodeReg p.addr = .rk i → s.rk.get i = none → statusBusy s.status = false →
        strictStep s = .error (.rk i)) ∧
      (∀ i, decodeReg p.addr = .trace i → s.trace.get i = none → (statusBusy s.status = false ∨ s.opl = .keygen) →
        strictStep s = .error (.trace i))) ∧
    ((p.rd = false ∨ holdsValue (decodeReg p.addr) s = true ∨ runningWrites (decodeReg p.addr) s = true) →
      strictStep s = .ok (step s))) ∧
  (∀ s : State, (∀ p rest, s.hostProgram ≠ .drive p :: rest) → strictStep s = .ok (step s))
end

