-- ==== Sys2Proof/Laws/Decode.lean ====
section
/-! SUPPORT. The small lemmas of the decoder and the encoder (30_encoding). -/

namespace Sys2Proof

@[simp] theorem decodeOp_code (op : CmdOp) : decodeOp op.code = some op := by cases op <;> rfl

/-- Only an opcode's own code decodes to it (30_encoding R61). -/
theorem decodeOp_eq_some {x : BitVec 4} {op : CmdOp} : decodeOp x = some op ↔ x = op.code := by
  revert x; cases op <;> decide

@[simp] theorem wordRsv_commandWord (op : CmdOp) (ver : BitVec 4) : wordRsv (commandWord op ver) = 0 := by
  revert ver; cases op <;> decide

@[simp] theorem wordOp_commandWord (op : CmdOp) (ver : BitVec 4) : wordOp (commandWord op ver) = op.code := by
  revert ver; cases op <;> decide

@[simp] theorem wordVer_commandWord (op : CmdOp) (ver : BitVec 4) : wordVer (commandWord op ver) = ver := by
  revert ver; cases op <;> decide

@[simp] theorem decodeCommand_commandWord (op : CmdOp) (ver : BitVec 4) :
    decodeCommand (commandWord op ver) = .ok (op, ver) := by
  simp [decodeCommand]

/-- A word is its three fields. -/
theorem word_eq_fields (w : BitVec 16) : w = wordRsv w ++ wordVer w ++ wordOp w := by
  refine BitVec.eq_of_getLsbD_eq fun i hi => ?_
  rw [BitVec.getLsbD_append (x := wordRsv w ++ wordVer w) (y := wordOp w),
    BitVec.getLsbD_append (x := wordRsv w) (y := wordVer w)]
  simp only [wordRsv, wordVer, wordOp, BitVec.getLsbD_extractLsb']
  interval_cases i <;> simp

/-- A word that decodes is the command's word (30_encoding R66). -/
theorem eq_commandWord_of_decodeCommand {w : BitVec 16} {op : CmdOp} {ver : BitVec 4}
    (h : decodeCommand w = .ok (op, ver)) : w = commandWord op ver := by
  unfold decodeCommand at h
  split at h
  · cases h
  · rename_i hr
    split at h
    · rename_i o ho
      cases h
      rw [decodeOp_eq_some] at ho
      calc w = wordRsv w ++ wordVer w ++ wordOp w := word_eq_fields w
        _ = commandWord op (wordVer w) := by rw [ho, show wordRsv w = 0 by simpa using hr]; rfl
    · cases h

@[simp] theorem decodeReg_encodeReg {reg : Reg} (h : reg.wellFormed = true) : decodeReg (encodeReg reg) = reg := by
  cases reg with
  | rk i => revert i; decide
  | trace i => revert i; decide
  | unmapped index =>
    have key : ∀ a : BitVec 6, isUnmapped a = true → decodeReg a = .unmapped a := by decide
    exact key index h
  | _ => rfl

/-- A decoded register name is well formed. -/
theorem decodeReg_wellFormed (index : BitVec 6) : (decodeReg index).wellFormed = true := by
  revert index; decide

@[simp] theorem encodeReg_decodeReg (index : BitVec 6) : encodeReg (decodeReg index) = index := by
  revert index; decide

/-- The fields of a descriptor are its three parts (30_encoding R67). -/
theorem accessDescriptor_fields (wr rd : Bool) (index : BitVec 6) :
    (accessDescriptor wr rd index).getLsbD 7 = wr ∧ (accessDescriptor wr rd index).getLsbD 6 = rd ∧
      (accessDescriptor wr rd index).extractLsb' 0 6 = index := by
  revert index; cases wr <;> cases rd <;> decide

@[simp] theorem decodeAccess_wr (index : BitVec 6) (data : BitVec 64) (len : BitVec 8) :
    decodeAccess (accessDescriptor true false index) data len = .wr (decodeReg index) data len := by
  obtain ⟨h1, h2, h3⟩ := accessDescriptor_fields true false index
  simp only [decodeAccess, h1, h2, h3]

@[simp] theorem decodeAccess_rd (index : BitVec 6) (data : BitVec 64) (len : BitVec 8) :
    decodeAccess (accessDescriptor false true index) data len = .rd (decodeReg index) := by
  obtain ⟨h1, h2, h3⟩ := accessDescriptor_fields false true index
  simp only [decodeAccess, h1, h2, h3]

@[simp] theorem decodeAccess_wrRd (index : BitVec 6) (data : BitVec 64) (len : BitVec 8) :
    decodeAccess (accessDescriptor true true index) data len = .wrRd (decodeReg index) data len := by
  obtain ⟨h1, h2, h3⟩ := accessDescriptor_fields true true index
  simp only [decodeAccess, h1, h2, h3]

@[simp] theorem decodeAccess_nop (index : BitVec 6) (data : BitVec 64) (len : BitVec 8) :
    decodeAccess (accessDescriptor false false index) data len = .nop index := by
  obtain ⟨h1, h2, h3⟩ := accessDescriptor_fields false false index
  simp only [decodeAccess, h1, h2, h3]

/-- No version past the enumeration (30_encoding R63). -/
theorem versionOfTag_none {n : Nat} (h : 3 < n) : versionOfTag n = none := by
  obtain ⟨k, rfl⟩ : ∃ k, n = k + 4 := ⟨n - 4, by omega⟩
  rfl

/-- A word is illegal exactly by its RSV or its OP (30_encoding R64, R66). -/
theorem decodeCommand_error_iff (w : BitVec 16) :
    (∃ r, decodeCommand w = .error r) ↔ (wordRsv w ≠ 0 ∨ wordOp w = 0 ∨ 5 ≤ (wordOp w).toNat) := by
  unfold decodeCommand
  by_cases h : wordRsv w = 0
  · have key : ∀ x : BitVec 4, decodeOp x = none ↔ (x = 0 ∨ 5 ≤ x.toNat) := by decide
    simp only [h, ne_eq, not_true, if_false, false_or, ← key]
    cases decodeOp (wordOp w) <;> simp
  · simp only [ne_eq, h, not_false_eq_true, if_true, true_or, iff_true]; exact ⟨_, rfl⟩

end Sys2Proof
end

