-- ==== Sys2Proof/Laws/Flags.lean ====
section
/-! SUPPORT. What each write of STATUS leaves in each of its fields (10_state R26, R27). -/

namespace Sys2Proof.Machine

@[simp] theorem startedStatus_eq : startedStatus = 0x0001 := by decide

@[simp] theorem succeededStatus_eq : succeededStatus = 0x0002 := by decide

/-- The word of a failure, field by field (60_exceptions R226). -/
theorem failedStatus_eq (e : ErrCode) (a : ErrArg) :
    failedStatus e a = 0#5 ++ a.code ++ 0#1 ++ e.code ++ 0#1 ++ 0#1 ++ 1#1 ++ 0#1 := rfl

@[simp] theorem statusBusy_failedStatus (e : ErrCode) (a : ErrArg) : statusBusy (failedStatus e a) = false := by
  cases e <;> cases a <;> rfl

@[simp] theorem statusDone_failedStatus (e : ErrCode) (a : ErrArg) : statusDone (failedStatus e a) = true := by
  cases e <;> cases a <;> rfl

@[simp] theorem statusErr_failedStatus (e : ErrCode) (a : ErrArg) : statusErr (failedStatus e a) = e.code := by
  cases e <;> cases a <;> rfl

@[simp] theorem statusErrArg_failedStatus (e : ErrCode) (a : ErrArg) : statusErrArg (failedStatus e a) = a.code := by
  cases e <;> cases a <;> rfl

@[simp] theorem statusReserved_failedStatus (e : ErrCode) (a : ErrArg) : statusReserved (failedStatus e a) = 0 := by
  cases e <;> cases a <;> rfl

/-! ### `STATUS.OVR <- 1` touches OVR only -/

@[simp] theorem statusBusy_markOverrun (w : BitVec 16) : statusBusy (markOverrun w) = statusBusy w := by
  simp [statusBusy, markOverrun]

@[simp] theorem statusDone_markOverrun (w : BitVec 16) : statusDone (markOverrun w) = statusDone w := by
  simp [statusDone, markOverrun]

@[simp] theorem statusOvr_markOverrun (w : BitVec 16) : statusOvr (markOverrun w) = true := by
  simp [statusOvr, markOverrun]

@[simp] theorem statusErr_markOverrun (w : BitVec 16) : statusErr (markOverrun w) = statusErr w := by
  simp only [statusErr, markOverrun]; ext i hi
  obtain rfl | rfl | rfl : i = 0 ∨ i = 1 ∨ i = 2 := by omega
  all_goals simp

@[simp] theorem statusErrArg_markOverrun (w : BitVec 16) : statusErrArg (markOverrun w) = statusErrArg w := by
  simp only [statusErrArg, markOverrun]; ext i hi
  obtain rfl | rfl | rfl : i = 0 ∨ i = 1 ∨ i = 2 := by omega
  all_goals simp

@[simp] theorem statusReserved_markOverrun (w : BitVec 16) : statusReserved (markOverrun w) = statusReserved w := by
  simp only [statusReserved, markOverrun]; ext i hi
  interval_cases i <;> simp

/-! ### Completion touches BUSY and DONE only -/

@[simp] theorem statusBusy_markComplete (w : BitVec 16) : statusBusy (markComplete w) = false := by
  simp [statusBusy, markComplete]

@[simp] theorem statusDone_markComplete (w : BitVec 16) : statusDone (markComplete w) = true := by
  simp [statusDone, markComplete]

@[simp] theorem statusOvr_markComplete (w : BitVec 16) : statusOvr (markComplete w) = statusOvr w := by
  simp [statusOvr, markComplete]

@[simp] theorem statusErr_markComplete (w : BitVec 16) : statusErr (markComplete w) = statusErr w := by
  simp only [statusErr, markComplete]; ext i hi
  obtain rfl | rfl | rfl : i = 0 ∨ i = 1 ∨ i = 2 := by omega
  all_goals simp

@[simp] theorem statusErrArg_markComplete (w : BitVec 16) : statusErrArg (markComplete w) = statusErrArg w := by
  simp only [statusErrArg, markComplete]; ext i hi
  obtain rfl | rfl | rfl : i = 0 ∨ i = 1 ∨ i = 2 := by omega
  all_goals simp

@[simp] theorem statusReserved_markComplete (w : BitVec 16) : statusReserved (markComplete w) = statusReserved w := by
  simp only [statusReserved, markComplete]; ext i hi
  interval_cases i <;> simp

end Sys2Proof.Machine
end

