-- ==== Sys2Proof/Laws/State.lean ====
section
/-! SUPPORT. For every named update of the state, what each field holds after it: one rewriting rule per field, all true by
definition, so that no later proof unfolds a record update. -/

namespace Sys2Proof.Machine

/-- `key_load()` writes C and D only (43_key_schedule R143). -/
@[simp] theorem keyLoad_fields (s : State) :
    (keyLoad s).cmd = s.cmd ∧ (keyLoad s).status = s.status ∧ (keyLoad s).din = s.din ∧ (keyLoad s).key = s.key ∧
    (keyLoad s).half = s.half ∧ (keyLoad s).rkey = s.rkey ∧ (keyLoad s).dout = s.dout ∧
    (keyLoad s).fout = s.fout ∧ (keyLoad s).rk = s.rk ∧ (keyLoad s).trace = s.trace ∧
    (keyLoad s).phase = s.phase ∧ (keyLoad s).idx = s.idx ∧ (keyLoad s).opl = s.opl ∧ (keyLoad s).verl = s.verl ∧
    (keyLoad s).c = hi28 (permute s.key.data Tables.PC1) ∧ (keyLoad s).d = lo28 (permute s.key.data Tables.PC1) ∧
    (keyLoad s).l = s.l ∧ (keyLoad s).r = s.r ∧ (keyLoad s).hostRdata = s.hostRdata ∧
    (keyLoad s).hostRlen = s.hostRlen ∧ (keyLoad s).hostProgram = s.hostProgram ∧
    (keyLoad s).freeCount = s.freeCount ∧
    (keyLoad s).resetCount = s.resetCount :=
  ⟨rfl, rfl, rfl, rfl, rfl, rfl, rfl, rfl, rfl, rfl, rfl, rfl, rfl, rfl, rfl, rfl, rfl, rfl, rfl, rfl, rfl, rfl, rfl⟩

/-- `block_load()` writes L and R only (45_feistel_engine R185). -/
@[simp] theorem blockLoad_fields (s : State) :
    (blockLoad s).cmd = s.cmd ∧ (blockLoad s).status = s.status ∧ (blockLoad s).din = s.din ∧
    (blockLoad s).key = s.key ∧ (blockLoad s).half = s.half ∧ (blockLoad s).rkey = s.rkey ∧
    (blockLoad s).dout = s.dout ∧ (blockLoad s).fout = s.fout ∧ (blockLoad s).rk = s.rk ∧
    (blockLoad s).trace = s.trace ∧ (blockLoad s).phase = s.phase ∧ (blockLoad s).idx = s.idx ∧
    (blockLoad s).opl = s.opl ∧ (blockLoad s).verl = s.verl ∧ (blockLoad s).c = s.c ∧ (blockLoad s).d = s.d ∧
    (blockLoad s).l = hi32 (permute s.din.data Tables.IP) ∧
    (blockLoad s).r = lo32 (permute s.din.data Tables.IP) ∧ (blockLoad s).hostRdata = s.hostRdata ∧
    (blockLoad s).hostRlen = s.hostRlen ∧ (blockLoad s).hostProgram = s.hostProgram ∧
    (blockLoad s).freeCount = s.freeCount ∧
    (blockLoad s).resetCount = s.resetCount :=
  ⟨rfl, rfl, rfl, rfl, rfl, rfl, rfl, rfl, rfl, rfl, rfl, rfl, rfl, rfl, rfl, rfl, rfl, rfl, rfl, rfl, rfl, rfl, rfl⟩

/-- `ks_step(i)` writes RK[i], C and D only (43_key_schedule R144). -/
@[simp] theorem ksStep_fields (i : Round) (s : State) :
    (ksStep i s).cmd = s.cmd ∧ (ksStep i s).status = s.status ∧ (ksStep i s).din = s.din ∧
    (ksStep i s).key = s.key ∧ (ksStep i s).half = s.half ∧ (ksStep i s).rkey = s.rkey ∧
    (ksStep i s).dout = s.dout ∧ (ksStep i s).fout = s.fout ∧
    (ksStep i s).rk = s.rk.set i (some (compressKey (rotateBits s.c (shiftAmount i)) (rotateBits s.d (shiftAmount i)))) ∧
    (ksStep i s).trace = s.trace ∧ (ksStep i s).phase = s.phase ∧ (ksStep i s).idx = s.idx ∧
    (ksStep i s).opl = s.opl ∧ (ksStep i s).verl = s.verl ∧ (ksStep i s).c = rotateBits s.c (shiftAmount i) ∧
    (ksStep i s).d = rotateBits s.d (shiftAmount i) ∧ (ksStep i s).l = s.l ∧ (ksStep i s).r = s.r ∧
    (ksStep i s).hostRdata = s.hostRdata ∧ (ksStep i s).hostRlen = s.hostRlen ∧
    (ksStep i s).hostProgram = s.hostProgram ∧ (ksStep i s).freeCount = s.freeCount ∧
    (ksStep i s).resetCount = s.resetCount :=
  ⟨rfl, rfl, rfl, rfl, rfl, rfl, rfl, rfl, rfl, rfl, rfl, rfl, rfl, rfl, rfl, rfl, rfl, rfl, rfl, rfl, rfl, rfl, rfl⟩

/-- `rnd_step(i)` writes TRACE[i], L and R only (45_feistel_engine R186). -/
@[simp] theorem rndStep_fields (i : Round) (s : State) :
    (rndStep i s).cmd = s.cmd ∧ (rndStep i s).status = s.status ∧ (rndStep i s).din = s.din ∧
    (rndStep i s).key = s.key ∧ (rndStep i s).half = s.half ∧ (rndStep i s).rkey = s.rkey ∧
    (rndStep i s).dout = s.dout ∧ (rndStep i s).fout = s.fout ∧ (rndStep i s).rk = s.rk ∧
    (rndStep i s).trace = s.trace.set i (some (s.r ++ nextR i s)) ∧ (rndStep i s).phase = s.phase ∧
    (rndStep i s).idx = s.idx ∧ (rndStep i s).opl = s.opl ∧ (rndStep i s).verl = s.verl ∧ (rndStep i s).c = s.c ∧
    (rndStep i s).d = s.d ∧ (rndStep i s).l = s.r ∧ (rndStep i s).r = nextR i s ∧
    (rndStep i s).hostRdata = s.hostRdata ∧ (rndStep i s).hostRlen = s.hostRlen ∧
    (rndStep i s).hostProgram = s.hostProgram ∧ (rndStep i s).freeCount = s.freeCount ∧
    (rndStep i s).resetCount = s.resetCount :=
  ⟨rfl, rfl, rfl, rfl, rfl, rfl, rfl, rfl, rfl, rfl, rfl, rfl, rfl, rfl, rfl, rfl, rfl, rfl, rfl, rfl, rfl, rfl, rfl⟩

/-- `final_step()` writes DOUT only (45_feistel_engine R187). -/
@[simp] theorem finalStep_fields (s : State) :
    (finalStep s).cmd = s.cmd ∧ (finalStep s).status = s.status ∧ (finalStep s).din = s.din ∧
    (finalStep s).key = s.key ∧ (finalStep s).half = s.half ∧ (finalStep s).rkey = s.rkey ∧
    (finalStep s).dout = some (terminal s.l s.r) ∧ (finalStep s).fout = s.fout ∧ (finalStep s).rk = s.rk ∧
    (finalStep s).trace = s.trace ∧ (finalStep s).phase = s.phase ∧ (finalStep s).idx = s.idx ∧
    (finalStep s).opl = s.opl ∧ (finalStep s).verl = s.verl ∧ (finalStep s).c = s.c ∧ (finalStep s).d = s.d ∧
    (finalStep s).l = s.l ∧ (finalStep s).r = s.r ∧ (finalStep s).hostRdata = s.hostRdata ∧
    (finalStep s).hostRlen = s.hostRlen ∧ (finalStep s).hostProgram = s.hostProgram ∧
    (finalStep s).freeCount = s.freeCount ∧
    (finalStep s).resetCount = s.resetCount :=
  ⟨rfl, rfl, rfl, rfl, rfl, rfl, rfl, rfl, rfl, rfl, rfl, rfl, rfl, rfl, rfl, rfl, rfl, rfl, rfl, rfl, rfl, rfl, rfl⟩

/-- A failure writes CMD and STATUS only (60_exceptions R226). -/
@[simp] theorem failureEntry_fields (word : BitVec 16) (e : Failure) (s : State) :
    (failureEntry word e s).cmd = word ∧ (failureEntry word e s).status = failedStatus e.err e.arg ∧
    (failureEntry word e s).din = s.din ∧ (failureEntry word e s).key = s.key ∧
    (failureEntry word e s).half = s.half ∧ (failureEntry word e s).rkey = s.rkey ∧
    (failureEntry word e s).dout = s.dout ∧ (failureEntry word e s).fout = s.fout ∧
    (failureEntry word e s).rk = s.rk ∧ (failureEntry word e s).trace = s.trace ∧
    (failureEntry word e s).phase = s.phase ∧ (failureEntry word e s).idx = s.idx ∧
    (failureEntry word e s).opl = s.opl ∧ (failureEntry word e s).verl = s.verl ∧
    (failureEntry word e s).c = s.c ∧ (failureEntry word e s).d = s.d ∧ (failureEntry word e s).l = s.l ∧
    (failureEntry word e s).r = s.r ∧ (failureEntry word e s).hostRdata = s.hostRdata ∧
    (failureEntry word e s).hostRlen = s.hostRlen ∧ (failureEntry word e s).hostProgram = s.hostProgram ∧
    (failureEntry word e s).freeCount = s.freeCount ∧
    (failureEntry word e s).resetCount = s.resetCount :=
  ⟨rfl, rfl, rfl, rfl, rfl, rfl, rfl, rfl, rfl, rfl, rfl, rfl, rfl, rfl, rfl, rfl, rfl, rfl, rfl, rfl, rfl, rfl, rfl⟩

/-- The start of a run writes the control state and STATUS only (40_command_model R81). -/
@[simp] theorem beginRun_fields (op : RunOp) (v : CipherVersion) (s : State) :
    (beginRun op v s).cmd = s.cmd ∧ (beginRun op v s).status = startedStatus ∧ (beginRun op v s).din = s.din ∧
    (beginRun op v s).key = s.key ∧ (beginRun op v s).half = s.half ∧ (beginRun op v s).rkey = s.rkey ∧
    (beginRun op v s).dout = s.dout ∧ (beginRun op v s).fout = s.fout ∧ (beginRun op v s).rk = s.rk ∧
    (beginRun op v s).trace = s.trace ∧ (beginRun op v s).phase = .ks ∧ (beginRun op v s).idx = 0 ∧
    (beginRun op v s).opl = op ∧ (beginRun op v s).verl = v ∧ (beginRun op v s).c = s.c ∧
    (beginRun op v s).d = s.d ∧ (beginRun op v s).l = s.l ∧ (beginRun op v s).r = s.r ∧
    (beginRun op v s).hostRdata = s.hostRdata ∧ (beginRun op v s).hostRlen = s.hostRlen ∧
    (beginRun op v s).hostProgram = s.hostProgram ∧ (beginRun op v s).freeCount = s.freeCount ∧
    (beginRun op v s).resetCount = s.resetCount :=
  ⟨rfl, rfl, rfl, rfl, rfl, rfl, rfl, rfl, rfl, rfl, rfl, rfl, rfl, rfl, rfl, rfl, rfl, rfl, rfl, rfl, rfl, rfl, rfl⟩

/-- FEVAL writes FOUT and STATUS only (44_round_function R168). -/
@[simp] theorem startFeval_fields (v : CipherVersion) (s : State) :
    (startFeval v s).cmd = s.cmd ∧ (startFeval v s).status = succeededStatus ∧ (startFeval v s).din = s.din ∧
    (startFeval v s).key = s.key ∧ (startFeval v s).half = s.half ∧ (startFeval v s).rkey = s.rkey ∧
    (startFeval v s).dout = s.dout ∧ (startFeval v s).fout = some (roundF v s.half.data s.rkey.data) ∧
    (startFeval v s).rk = s.rk ∧ (startFeval v s).trace = s.trace ∧ (startFeval v s).phase = s.phase ∧
    (startFeval v s).idx = s.idx ∧ (startFeval v s).opl = s.opl ∧ (startFeval v s).verl = s.verl ∧
    (startFeval v s).c = s.c ∧ (startFeval v s).d = s.d ∧ (startFeval v s).l = s.l ∧ (startFeval v s).r = s.r ∧
    (startFeval v s).hostRdata = s.hostRdata ∧ (startFeval v s).hostRlen = s.hostRlen ∧
    (startFeval v s).hostProgram = s.hostProgram ∧ (startFeval v s).freeCount = s.freeCount ∧
    (startFeval v s).resetCount = s.resetCount :=
  ⟨rfl, rfl, rfl, rfl, rfl, rfl, rfl, rfl, rfl, rfl, rfl, rfl, rfl, rfl, rfl, rfl, rfl, rfl, rfl, rfl, rfl, rfl, rfl⟩

/-- `complete()` writes PHASE, IDX and STATUS only (40_command_model R86). -/
@[simp] theorem complete_fields (s : State) :
    (complete s).cmd = s.cmd ∧ (complete s).status = markComplete s.status ∧ (complete s).din = s.din ∧
    (complete s).key = s.key ∧ (complete s).half = s.half ∧ (complete s).rkey = s.rkey ∧
    (complete s).dout = s.dout ∧ (complete s).fout = s.fout ∧ (complete s).rk = s.rk ∧
    (complete s).trace = s.trace ∧ (complete s).phase = .idle ∧ (complete s).idx = 0 ∧ (complete s).opl = s.opl ∧
    (complete s).verl = s.verl ∧ (complete s).c = s.c ∧ (complete s).d = s.d ∧ (complete s).l = s.l ∧
    (complete s).r = s.r ∧ (complete s).hostRdata = s.hostRdata ∧ (complete s).hostRlen = s.hostRlen ∧
    (complete s).hostProgram = s.hostProgram ∧ (complete s).freeCount = s.freeCount ∧
    (complete s).resetCount = s.resetCount :=
  ⟨rfl, rfl, rfl, rfl, rfl, rfl, rfl, rfl, rfl, rfl, rfl, rfl, rfl, rfl, rfl, rfl, rfl, rfl, rfl, rfl, rfl, rfl, rfl⟩

/-- A dropped CMD write sets STATUS.OVR only (40_command_model R82). -/
@[simp] theorem setOverrun_fields (s : State) :
    (setOverrun s).cmd = s.cmd ∧ (setOverrun s).status = markOverrun s.status ∧ (setOverrun s).din = s.din ∧
    (setOverrun s).key = s.key ∧ (setOverrun s).half = s.half ∧ (setOverrun s).rkey = s.rkey ∧
    (setOverrun s).dout = s.dout ∧ (setOverrun s).fout = s.fout ∧ (setOverrun s).rk = s.rk ∧
    (setOverrun s).trace = s.trace ∧ (setOverrun s).phase = s.phase ∧ (setOverrun s).idx = s.idx ∧
    (setOverrun s).opl = s.opl ∧ (setOverrun s).verl = s.verl ∧ (setOverrun s).c = s.c ∧ (setOverrun s).d = s.d ∧
    (setOverrun s).l = s.l ∧ (setOverrun s).r = s.r ∧ (setOverrun s).hostRdata = s.hostRdata ∧
    (setOverrun s).hostRlen = s.hostRlen ∧ (setOverrun s).hostProgram = s.hostProgram ∧
    (setOverrun s).freeCount = s.freeCount ∧
    (setOverrun s).resetCount = s.resetCount :=
  ⟨rfl, rfl, rfl, rfl, rfl, rfl, rfl, rfl, rfl, rfl, rfl, rfl, rfl, rfl, rfl, rfl, rfl, rfl, rfl, rfl, rfl, rfl, rfl⟩

/-- The read ports and the counter are all a read touches (20_memory R47). -/
@[simp] theorem drivePorts_fields (reg : Reg) (before after : State) :
    (drivePorts reg before after).cmd = after.cmd ∧ (drivePorts reg before after).status = after.status ∧
    (drivePorts reg before after).din = after.din ∧ (drivePorts reg before after).key = after.key ∧
    (drivePorts reg before after).half = after.half ∧ (drivePorts reg before after).rkey = after.rkey ∧
    (drivePorts reg before after).dout = after.dout ∧ (drivePorts reg before after).fout = after.fout ∧
    (drivePorts reg before after).rk = after.rk ∧ (drivePorts reg before after).trace = after.trace ∧
    (drivePorts reg before after).phase = after.phase ∧ (drivePorts reg before after).idx = after.idx ∧
    (drivePorts reg before after).opl = after.opl ∧ (drivePorts reg before after).verl = after.verl ∧
    (drivePorts reg before after).c = after.c ∧ (drivePorts reg before after).d = after.d ∧
    (drivePorts reg before after).l = after.l ∧ (drivePorts reg before after).r = after.r ∧
    (drivePorts reg before after).hostRdata = readData reg before ∧
    (drivePorts reg before after).hostRlen = readLen reg before ∧
    (drivePorts reg before after).hostProgram = after.hostProgram ∧
    (drivePorts reg before after).freeCount = before.freeCount + 1 ∧
    (drivePorts reg before after).resetCount = after.resetCount :=
  ⟨rfl, rfl, rfl, rfl, rfl, rfl, rfl, rfl, rfl, rfl, rfl, rfl, rfl, rfl, rfl, rfl, rfl, rfl, rfl, rfl, rfl, rfl, rfl⟩

/-- The read ports and the counter are all a cycle without read touches (46_host_access R205). -/
@[simp] theorem floatPorts_fields (before after : State) :
    (floatPorts before after).cmd = after.cmd ∧ (floatPorts before after).status = after.status ∧
    (floatPorts before after).din = after.din ∧ (floatPorts before after).key = after.key ∧
    (floatPorts before after).half = after.half ∧ (floatPorts before after).rkey = after.rkey ∧
    (floatPorts before after).dout = after.dout ∧ (floatPorts before after).fout = after.fout ∧
    (floatPorts before after).rk = after.rk ∧ (floatPorts before after).trace = after.trace ∧
    (floatPorts before after).phase = after.phase ∧ (floatPorts before after).idx = after.idx ∧
    (floatPorts before after).opl = after.opl ∧ (floatPorts before after).verl = after.verl ∧
    (floatPorts before after).c = after.c ∧ (floatPorts before after).d = after.d ∧
    (floatPorts before after).l = after.l ∧ (floatPorts before after).r = after.r ∧
    (floatPorts before after).hostRdata = Config.freeReadData before.freeCount ∧
    (floatPorts before after).hostRlen = Config.freeReadLen before.freeCount ∧
    (floatPorts before after).hostProgram = after.hostProgram ∧
    (floatPorts before after).freeCount = before.freeCount + 1 ∧
    (floatPorts before after).resetCount = after.resetCount :=
  ⟨rfl, rfl, rfl, rfl, rfl, rfl, rfl, rfl, rfl, rfl, rfl, rfl, rfl, rfl, rfl, rfl, rfl, rfl, rfl, rfl, rfl, rfl, rfl⟩

/-- Placing the host's coming lines changes nothing else. -/
@[simp] theorem withProgram_fields (s : State) (lines : List HostLine) :
    (s.withProgram lines).cmd = s.cmd ∧ (s.withProgram lines).status = s.status ∧
    (s.withProgram lines).din = s.din ∧ (s.withProgram lines).key = s.key ∧ (s.withProgram lines).half = s.half ∧
    (s.withProgram lines).rkey = s.rkey ∧ (s.withProgram lines).dout = s.dout ∧
    (s.withProgram lines).fout = s.fout ∧ (s.withProgram lines).rk = s.rk ∧
    (s.withProgram lines).trace = s.trace ∧ (s.withProgram lines).phase = s.phase ∧
    (s.withProgram lines).idx = s.idx ∧ (s.withProgram lines).opl = s.opl ∧ (s.withProgram lines).verl = s.verl ∧
    (s.withProgram lines).c = s.c ∧ (s.withProgram lines).d = s.d ∧ (s.withProgram lines).l = s.l ∧
    (s.withProgram lines).r = s.r ∧ (s.withProgram lines).hostRdata = s.hostRdata ∧
    (s.withProgram lines).hostRlen = s.hostRlen ∧ (s.withProgram lines).hostProgram = lines ∧
    (s.withProgram lines).freeCount = s.freeCount ∧
    (s.withProgram lines).resetCount = s.resetCount :=
  ⟨rfl, rfl, rfl, rfl, rfl, rfl, rfl, rfl, rfl, rfl, rfl, rfl, rfl, rfl, rfl, rfl, rfl, rfl, rfl, rfl, rfl, rfl, rfl⟩

/-- The reset edge keeps the host's lines and `freeCount`, counts itself, and every other field has its reset value (70_reset_and_hazards
R250). -/
theorem resetState_eq (s : State) :
    resetState s =
      { State.reset with hostProgram := s.hostProgram, freeCount := s.freeCount, resetCount := s.resetCount + 1 } := rfl

@[simp] theorem resetState_hostProgram (s : State) : (resetState s).hostProgram = s.hostProgram := rfl

@[simp] theorem resetState_freeCount (s : State) : (resetState s).freeCount = s.freeCount := rfl

@[simp] theorem resetState_resetCount (s : State) : (resetState s).resetCount = s.resetCount + 1 := rfl

end Sys2Proof.Machine
end

