-- ==== Sys2Proof/Laws/Ops.lean ====
section
/-! SUPPORT. What each shared operation can do, said once: later proofs cite these and do not unfold the operation. -/

namespace Sys2Proof.Machine

/-! ### Every instruction answers a next state -/

/-- The state an instruction's edge leaves, before the read ports are set. -/
def edgeState (i : Instr) (s : State) : State :=
  match i with
  | .enc ver => writeCmd (commandWord .enc ver) s
  | .dec ver => writeCmd (commandWord .dec ver) s
  | .keygen ver => writeCmd (commandWord .keygen ver) s
  | .feval ver => writeCmd (commandWord .feval ver) s
  | .wr reg data len => writeReg reg data len s
  | .rd _ => sequencerStep s
  | .wrRd reg data len => writeReg reg data len s
  | .nop _ => sequencerStep s

/-- The register whose value the read ports carry, if the instruction reads. -/
def readOf : Instr → Option Reg
  | .rd reg => some reg
  | .wrRd reg _ _ => some reg
  | .enc _ | .dec _ | .keygen _ | .feval _ | .wr _ _ _ | .nop _ => none

/-- The read ports at the end of a cycle. -/
def setPorts (read : Option Reg) (before after : State) : State :=
  match read with
  | some reg => drivePorts reg before after
  | none => floatPorts before after

/-- Every instruction is an edge followed by the read ports (40_command_model R84; 46_host_access R201, R205). -/
theorem exec_eq (i : Instr) (s : State) : exec i s = .next (setPorts (readOf i) s (edgeState i s)) := by
  cases i <;> rfl

theorem exec_eq_next_iff {i : Instr} {s t : State} :
    exec i s = .next t ↔ t = setPorts (readOf i) s (edgeState i s) := by
  rw [exec_eq]; constructor
  · intro h; cases h; rfl
  · rintro rfl; rfl

/-- Only the read ports and the counter differ between the edge and the state after it. -/
theorem setPorts_eq (read : Option Reg) (before after : State) :
    ∃ data len, setPorts read before after =
      { after with hostRdata := data, hostRlen := len, freeCount := before.freeCount + 1 } := by
  cases read <;> exact ⟨_, _, rfl⟩

/-- The frame of the read ports, field by field. -/
theorem setPorts_frame (read : Option Reg) (before after : State) :
    (setPorts read before after).cmd = after.cmd ∧ (setPorts read before after).status = after.status ∧
    (setPorts read before after).din = after.din ∧ (setPorts read before after).key = after.key ∧
    (setPorts read before after).half = after.half ∧ (setPorts read before after).rkey = after.rkey ∧
    (setPorts read before after).dout = after.dout ∧ (setPorts read before after).fout = after.fout ∧
    (setPorts read before after).rk = after.rk ∧ (setPorts read before after).trace = after.trace ∧
    (setPorts read before after).phase = after.phase ∧ (setPorts read before after).idx = after.idx ∧
    (setPorts read before after).opl = after.opl ∧ (setPorts read before after).verl = after.verl ∧
    (setPorts read before after).c = after.c ∧ (setPorts read before after).d = after.d ∧
    (setPorts read before after).l = after.l ∧ (setPorts read before after).r = after.r ∧
    (setPorts read before after).hostProgram = after.hostProgram ∧
    (setPorts read before after).freeCount = before.freeCount + 1 ∧
    (setPorts read before after).resetCount = after.resetCount := by
  cases read <;> simp [setPorts]

/-- A command's edge is the CMD write of its word. -/
theorem edgeState_commandInstr (op : CmdOp) (ver : BitVec 4) (s : State) :
    edgeState (commandInstr op ver) s = writeCmd (commandWord op ver) s := by
  cases op <;> rfl

theorem readOf_commandInstr (op : CmdOp) (ver : BitVec 4) : readOf (commandInstr op ver) = none := by
  cases op <;> rfl

/-! ### Writes to CMD -/

theorem writeCmd_idle {s : State} (h : s.phase = .idle) (word : BitVec 16) : writeCmd word s = issue word s := by
  simp [writeCmd, h]

theorem writeCmd_busy {s : State} (h : s.phase ≠ .idle) (word : BitVec 16) :
    writeCmd word s = setOverrun (sequencerStep s) := by
  simp [writeCmd, h]

/-- Issue either fails, with the failure entry, or starts the accepted command (40_command_model R81). -/
theorem issue_cases (word : BitVec 16) (s : State) :
    (∃ e, validate word s = .error e ∧ issue word s = failureEntry word e s) ∨
    (∃ a, validate word s = .ok a ∧ issue word s = startCommand a { s with cmd := word }) := by
  unfold issue
  cases validate word s with
  | error e => exact .inl ⟨e, rfl, rfl⟩
  | ok a => exact .inr ⟨a, rfl, rfl⟩

theorem issue_of_error {word : BitVec 16} {s : State} {e : Failure} (h : validate word s = .error e) :
    issue word s = failureEntry word e s := by simp [issue, h]

theorem issue_of_ok {word : BitVec 16} {s : State} {a : Accepted} (h : validate word s = .ok a) :
    issue word s = startCommand a { s with cmd := word } := by simp [issue, h]

/-- On an idle block a command's cycle is its issue edge. -/
theorem exec_commandInstr_idle (op : CmdOp) (ver : BitVec 4) {s : State} (h : s.phase = .idle) :
    exec (commandInstr op ver) s = .next (floatPorts s (issue (commandWord op ver) s)) := by
  rw [exec_eq, edgeState_commandInstr, readOf_commandInstr, writeCmd_idle h]; rfl

/-- The frame of issue: CMD holds the word, and no operand, no DOUT, RK or TRACE changes (20_memory R41). -/
theorem issue_frame (w : BitVec 16) (s : State) :
    (issue w s).cmd = w ∧ (issue w s).din = s.din ∧ (issue w s).key = s.key ∧ (issue w s).half = s.half ∧
    (issue w s).rkey = s.rkey ∧ (issue w s).dout = s.dout ∧ (issue w s).rk = s.rk ∧ (issue w s).trace = s.trace ∧
    (issue w s).hostProgram = s.hostProgram ∧ (issue w s).resetCount = s.resetCount := by
  rcases issue_cases w s with ⟨e, _, h⟩ | ⟨a, _, h⟩
  · simp [h]
  · rw [h]; cases a <;> simp [startCommand, startEnc, startDec, startKeygen]

/-- What validation says of a command's word: the first wrong LEN, else the version (40_command_model R83). -/
theorem validate_commandWord (op : CmdOp) (ver : BitVec 4) (s : State) :
    validate (commandWord op ver) s =
      match firstBadOperand op s with
      | some o => .error ⟨.invalidLength, o.errArg⟩
      | none => acceptVersion op ver := by
  have h := decodeCommand_commandWord op ver
  unfold validate
  split <;> rename_i hd <;> rw [h] at hd <;> cases hd
  rfl

/-- Which operand is reported first, for two operands. -/
theorem firstBadOperand_eq (op : CmdOp) (s : State) :
    firstBadOperand op s =
      match op with
      | .enc | .dec => if s.din.len = 64 then if s.key.len = 64 then none else some .key else some .din
      | .keygen => if s.key.len = 64 then none else some .key
      | .feval => if s.half.len = 32 then if s.rkey.len = 48 then none else some .rkey else some .half := by
  have conv : ∀ (x : BitVec 8) (n : Nat), n < 256 → (x.toNat == n) = decide (x = BitVec.ofNat 8 n) := by
    intro x n hn
    rw [Bool.eq_iff_iff]
    simp only [beq_iff_eq, decide_eq_true_eq]
    constructor
    · rintro rfl; simp
    · rintro rfl; simp [Nat.mod_eq_of_lt hn]
  cases op <;>
    simp only [firstBadOperand, operandsOf, List.find?, lenOk, lenOf, OperandName.width, conv _ 64 (by omega),
      conv _ 32 (by omega), conv _ 48 (by omega)] <;>
    split_ifs <;> simp_all

/-- The accepted command of a validation that passes, with what it tells of the word. -/
theorem validate_ok {word : BitVec 16} {s : State} {a : Accepted} (h : validate word s = .ok a) :
    ∃ op ver, word = commandWord op ver ∧ firstBadOperand op s = none ∧ acceptVersion op ver = .ok a := by
  unfold validate at h
  split at h
  · cases h
  · rename_i op ver hd
    split at h
    · cases h
    · rename_i hb
      exact ⟨op, ver, eq_commandWord_of_decodeCommand hd, hb, h⟩

/-- What is accepted, per opcode. -/
theorem acceptVersion_ok {op : CmdOp} {ver : BitVec 4} {a : Accepted} (h : acceptVersion op ver = .ok a) :
    (op = .keygen ∧ a = .keygen) ∨
    ∃ v, versionOfTag ver.toNat = some v ∧
      ((op = .enc ∧ a = .enc v) ∨ (op = .dec ∧ a = .dec v) ∨ (op = .feval ∧ a = .feval v)) := by
  cases op with
  | keygen => cases h; exact .inl ⟨rfl, rfl⟩
  | enc => simp only [acceptVersion, withVersion] at h; split at h <;> cases h; exact .inr ⟨_, ‹_›, .inl ⟨rfl, rfl⟩⟩
  | dec =>
    simp only [acceptVersion, withVersion] at h; split at h <;> cases h
    exact .inr ⟨_, ‹_›, .inr (.inl ⟨rfl, rfl⟩)⟩
  | feval =>
    simp only [acceptVersion, withVersion] at h; split at h <;> cases h
    exact .inr ⟨_, ‹_›, .inr (.inr ⟨rfl, rfl⟩)⟩

/-- What the version check accepts, when the tag is in the enumeration. -/
theorem acceptVersion_some {op : CmdOp} {ver : BitVec 4} {v : CipherVersion} (h : versionOfTag ver.toNat = some v) :
    acceptVersion op ver =
      .ok (match op with | .enc => .enc v | .dec => .dec v | .keygen => .keygen | .feval => .feval v) := by
  cases op <;> simp [acceptVersion, withVersion, h]

/-- The (ERR, ERR_ARG) pair of a failure is one the block defines (60_exceptions R220, R221). -/
theorem validate_error_pair {word : BitVec 16} {s : State} {e : Failure} (h : validate word s = .error e) :
    (e.err.code, e.arg.code) ∈ errorPairs ∧ e.err ≠ .none := by
  unfold validate at h
  split at h
  · cases h; decide
  · split at h
    · rename_i o _; cases h; cases o <;> decide
    · rename_i op ver _ _ _
      cases op <;> simp only [acceptVersion, withVersion] at h <;> first | cases h | (split at h <;> cases h; decide)

/-! ### The sequencer step -/

/-- What a sequencer step can do (40_command_model R85). -/
theorem sequencerStep_cases (s : State) :
    (s.phase = .idle ∧ sequencerStep s = s) ∨
    (s.phase = .ks ∧ s.idx.val < 15 ∧ sequencerStep s = { ksStep s.idx s with idx := s.idx + 1 }) ∨
    (s.phase = .ks ∧ s.idx = 15 ∧ s.opl = .keygen ∧ sequencerStep s = complete (ksStep 15 s)) ∨
    (s.phase = .ks ∧ s.idx = 15 ∧ s.opl ≠ .keygen ∧ sequencerStep s = { ksStep 15 s with phase := .rnd, idx := 0 }) ∨
    (s.phase = .rnd ∧ s.idx.val < 15 ∧ sequencerStep s = { rndStep s.idx s with idx := s.idx + 1 }) ∨
    (s.phase = .rnd ∧ s.idx = 15 ∧ sequencerStep s = complete (finalStep (rndStep 15 s))) := by
  have h15 : ¬ s.idx.val < 15 → s.idx = 15 := fun h => Fin.ext (by have := s.idx.isLt; show s.idx.val = 15; omega)
  unfold sequencerStep
  cases hp : s.phase with
  | idle => simp
  | ks =>
    by_cases hi : s.idx.val < 15
    · simp [hi]
    · by_cases ho : s.opl = .keygen <;> simp [h15 hi, ho]
  | rnd =>
    by_cases hi : s.idx.val < 15
    · simp [hi]
    · simp [h15 hi]

@[simp] theorem sequencerStep_idle {s : State} (h : s.phase = .idle) : sequencerStep s = s := by
  simp [sequencerStep, h]

/-- The frame of the sequencer step: what only the host writes stays (20_memory R41). -/
@[simp] theorem sequencerStep_frame (s : State) :
    (sequencerStep s).cmd = s.cmd ∧ (sequencerStep s).din = s.din ∧ (sequencerStep s).key = s.key ∧
    (sequencerStep s).half = s.half ∧ (sequencerStep s).rkey = s.rkey ∧ (sequencerStep s).fout = s.fout ∧
    (sequencerStep s).opl = s.opl ∧ (sequencerStep s).verl = s.verl ∧ (sequencerStep s).hostRdata = s.hostRdata ∧
    (sequencerStep s).hostRlen = s.hostRlen ∧ (sequencerStep s).hostProgram = s.hostProgram ∧
    (sequencerStep s).freeCount = s.freeCount ∧ (sequencerStep s).resetCount = s.resetCount := by
  rcases sequencerStep_cases s with ⟨_, h⟩ | ⟨_, _, h⟩ | ⟨_, _, _, h⟩ | ⟨_, _, _, h⟩ | ⟨_, _, h⟩ | ⟨_, _, h⟩ <;>
    rw [h] <;> simp

/-- A CMD write, idle or busy, changes no operand register (20_memory R41). -/
theorem writeCmd_operands (w : BitVec 16) (s : State) :
    (writeCmd w s).din = s.din ∧ (writeCmd w s).key = s.key ∧ (writeCmd w s).half = s.half ∧
    (writeCmd w s).rkey = s.rkey := by
  by_cases hp : s.phase = .idle
  · rw [writeCmd_idle hp]; simp [issue_frame]
  · rw [writeCmd_busy hp]; simp

/-- No instruction is a reset: the count of reset edges stays (70_reset_and_hazards R250). -/
theorem edgeState_resetCount (i : Instr) (s : State) : (edgeState i s).resetCount = s.resetCount := by
  have wc : ∀ w, (writeCmd w s).resetCount = s.resetCount := by
    intro w
    by_cases hp : s.phase = .idle
    · rw [writeCmd_idle hp]; simp [issue_frame]
    · rw [writeCmd_busy hp]; simp
  have wr : ∀ reg data len, (writeReg reg data len s).resetCount = s.resetCount := by
    intro reg data len
    cases reg <;> first | exact wc _ | simp [writeReg]
  cases i <;> first | exact wc _ | exact wr _ _ _ | simp [edgeState]

/-! ### Reads -/

/-- `result(X)` of a register the running command does not write: its value, or its pattern (46_host_access R201). -/
theorem resultValue_notRunning {w : Nat} {reg : Reg} {held : Option (BitVec w)} {s : State}
    (h : runningWrites reg s = false) :
    resultValue reg held s = held.getD ((Config.freePattern s.resetCount reg).setWidth w) := by
  simp [resultValue, h]

/-- `result(X)` of a register the running command writes: any value (46_host_access R202). -/
theorem resultValue_running {w : Nat} {reg : Reg} {held : Option (BitVec w)} {s : State}
    (h : runningWrites reg s = true) :
    resultValue reg held s = (Config.freeReadData s.freeCount).setWidth w := by
  simp [resultValue, h]

/-- What a read drives depends on the register alone, where the running command does not write it (20_memory R47). -/
theorem read_of_unchanged {reg : Reg} {s t : State} (hu : unchanged reg s t) (hr : t.resetCount = s.resetCount)
    (h1 : runningWrites reg s = false) (h2 : runningWrites reg t = false) :
    readData reg t = readData reg s ∧ readLen reg t = readLen reg s := by
  cases reg <;> simp only [unchanged] at hu <;>
    simp [readData, readLen, resultValue_notRunning h1, resultValue_notRunning h2, hr, hu]

/-! ### The step -/

theorem step_of_drive {s : State} {p : HostCycle} {rest : List HostLine} (h : s.hostProgram = .drive p :: rest)
    (hr : p.rst = false) : step s = exec (cycleInstr p) { s with hostProgram := rest } := by
  simp [step, fetchCycle, h, hr]

theorem step_of_reset {s : State} {p : HostCycle} {rest : List HostLine} (h : s.hostProgram = .drive p :: rest)
    (hr : p.rst = true) : step s = .next (resetEdge p { s with hostProgram := rest }) := by
  simp [step, fetchCycle, h, hr]

theorem cycleInstr_idleCycle : cycleInstr idleCycle = .nop 0 := by decide

theorem cycleInstr_statusReadCycle : cycleInstr statusReadCycle = .rd .status := by decide

theorem step_of_empty {s : State} (h : s.hostProgram = []) : step s = exec (.nop 0) s := by
  simp only [step, fetchCycle, h, cycleInstr_idleCycle]; rfl

theorem step_of_wait_busy {s : State} {rest : List HostLine} (h : s.hostProgram = .wait :: rest)
    (hb : statusBusy s.status = true) : step s = exec (.rd .status) s := by
  simp only [step, fetchCycle, h, hb, if_true, cycleInstr_statusReadCycle]; rfl

theorem step_of_wait_done {s : State} {rest : List HostLine} (h : s.hostProgram = .wait :: rest)
    (hb : statusBusy s.status = false) : step s = exec (.rd .status) { s with hostProgram := rest } := by
  simp only [step, fetchCycle, h, hb, cycleInstr_statusReadCycle]; rfl

/-- What a step can be: a reset edge, or an instruction, on the state with the host advanced. -/
theorem step_cases (s : State) :
    ∃ lines, (∃ p : HostCycle, p.rst = true ∧ step s = .next (resetEdge p { s with hostProgram := lines })) ∨
      ∃ i, step s = exec i { s with hostProgram := lines } := by
  cases hp : s.hostProgram with
  | nil => exact ⟨[], .inr ⟨.nop 0, by rw [step_of_empty hp, ← hp]⟩⟩
  | cons line rest =>
    cases line with
    | drive p =>
      cases hr : p.rst with
      | true => exact ⟨rest, .inl ⟨p, hr, step_of_reset hp hr⟩⟩
      | false => exact ⟨rest, .inr ⟨_, step_of_drive hp hr⟩⟩
    | wait =>
      cases hb : statusBusy s.status with
      | true => exact ⟨.wait :: rest, .inr ⟨.rd .status, by rw [step_of_wait_busy hp hb, ← hp]⟩⟩
      | false => exact ⟨rest, .inr ⟨_, step_of_wait_done hp hb⟩⟩

end Sys2Proof.Machine
end

