-- ==== Sys2Proof/Laws/Independence.lean ====
section
/-! SUPPORT. What the shared operations do not depend on: data for the control state, operand registers for a running command. -/

namespace Sys2Proof.Machine

theorem validate_controlOnly (w : BitVec 16) (s : State) : validate w s.controlOnly = validate w s := by
  unfold validate
  have : ∀ op, firstBadOperand op s.controlOnly = firstBadOperand op s := by
    intro op; rw [firstBadOperand_eq, firstBadOperand_eq]; cases op <;> rfl
  simp only [this]

/-- Where the sequencer goes does not depend on data (45_feistel_engine R190 law 4). -/
theorem sequencerStep_controlOnly (s : State) :
    (sequencerStep s.controlOnly).controlOnly = (sequencerStep s).controlOnly := by
  have hp : s.controlOnly.phase = s.phase := rfl
  have hi : s.controlOnly.idx = s.idx := rfl
  have ho : s.controlOnly.opl = s.opl := rfl
  unfold sequencerStep
  rw [hp, hi, ho]
  cases s.phase with
  | idle => rfl
  | ks =>
    dsimp only
    split_ifs <;> rfl
  | rnd =>
    dsimp only
    split_ifs <;> rfl

theorem issue_controlOnly (w : BitVec 16) (s : State) :
    (issue w s.controlOnly).controlOnly = (issue w s).controlOnly := by
  unfold issue
  rw [validate_controlOnly]
  cases validate w s with
  | error e => rfl
  | ok a => cases a <;> rfl

theorem writeCmd_controlOnly (w : BitVec 16) (s : State) :
    (writeCmd w s.controlOnly).controlOnly = (writeCmd w s).controlOnly := by
  unfold writeCmd
  have hp : s.controlOnly.phase = s.phase := rfl
  rw [hp]
  split_ifs
  · exact issue_controlOnly w s
  · have := sequencerStep_controlOnly s
    simp only [State.controlOnly, State.mk.injEq, setOverrun_fields] at this ⊢
    simp_all

/-- The running command reads no operand register (20_memory R53). -/
theorem sequencerStep_forgetOperands (s : State) :
    sequencerStep s.forgetOperands =
      { sequencerStep s with din := ⟨0, 0⟩, key := ⟨0, 0⟩, half := ⟨0, 0⟩, rkey := ⟨0, 0⟩, hostRdata := 0, hostRlen := 0 } := by
  have hp : s.forgetOperands.phase = s.phase := rfl
  have hi : s.forgetOperands.idx = s.idx := rfl
  have ho : s.forgetOperands.opl = s.opl := rfl
  unfold sequencerStep
  rw [hp, hi, ho]
  cases s.phase with
  | idle => rfl
  | ks =>
    dsimp only
    split_ifs <;> rfl
  | rnd =>
    dsimp only
    split_ifs <;> rfl

/-! ### What `forgetUnread` forgets, per phase -/

theorem forgetUnread_phase (s : State) : s.forgetUnread.phase = s.phase := by
  unfold State.forgetUnread; split_ifs <;> rfl

theorem forgetUnread_idle {s : State} (h : s.phase = .idle) :
    s.forgetUnread = { s with opl := .enc, verl := .canonical, c := 0, d := 0, l := 0, r := 0 } := by
  simp [State.forgetUnread, h]

theorem forgetUnread_keygen {s : State} (h : s.phase = .ks) (ho : s.opl = .keygen) :
    s.forgetUnread = { s with verl := .canonical, l := 0, r := 0 } := by
  simp [State.forgetUnread, h, ho]

theorem forgetUnread_other {s : State} (h : s.phase ≠ .idle) (ho : ¬(s.phase = .ks ∧ s.opl = .keygen)) :
    s.forgetUnread = s := by
  simp [State.forgetUnread, h, ho]

end Sys2Proof.Machine
end

