-- ==== Sys2Proof/Laws/Primitives.lean ====
section
/-! SUPPORT. The small lemmas of the primitives: each says once what a primitive's bits are (41_primitives). -/

namespace Sys2Proof.Machine

/-- Two strings are equal when they agree at every position. -/
theorem eq_of_bitAt_eq {w : Nat} {x y : BitVec w} (h : ∀ p, 1 ≤ p → p ≤ w → bitAt x p = bitAt y p) : x = y :=
  BitVec.eq_of_getMsbD_eq fun i hi => by simpa [bitAt] using h (i + 1) (by omega) (by omega)

theorem getMsbD_ofPositions (n : Nat) (f : Nat → Bool) (i : Nat) :
    (ofPositions n f).getMsbD i = (decide (i < n) && f i) := by
  induction n with
  | zero => simp [ofPositions]
  | succ n ih =>
    rw [ofPositions, BitVec.getMsbD_concat, ih]
    by_cases h : i < n
    · simp [h, Nat.lt_succ_of_lt h]
    · by_cases h2 : i = n
      · subst h2; simp
      · have : ¬ i < n + 1 := by omega
        simp [h, h2, this]

/-- Output position i of `permute` is input position T[i] (41_primitives R101). -/
theorem bitAt_permute {w n : Nat} (s : BitVec w) (T : Vector Nat n) {p : Nat} (h1 : 1 ≤ p) (h2 : p ≤ n) :
    bitAt (permute s T) p = bitAt s (T.getD (p - 1) 0) := by
  have hp : p - 1 < n := by omega
  simp [bitAt, permute, getMsbD_ofPositions, hp]

/-- A straight permutation lists every position from 1 to its length (41_primitives R101). -/
theorem isStraight_iff {n : Nat} (T : Vector Nat n) : isStraight T = true ↔ ∀ p, 1 ≤ p → p ≤ n → p ∈ T.toList := by
  simp only [isStraight, List.all_eq_true, List.mem_range, List.contains_iff_mem]
  constructor
  · intro h p h1 h2
    have := h (p - 1) (by omega)
    rwa [Nat.sub_add_cancel h1] at this
  · exact fun h i hi => h (i + 1) (by omega) (by omega)

/-- A straight permutation lists nothing but positions, since it has no room for more. -/
theorem zero_notMem_of_isStraight {n : Nat} {T : Vector Nat n} (h : isStraight T = true) : 0 ∉ T.toList := by
  have sub : List.range' 1 n ⊆ T.toList := by
    intro p hp
    rw [List.mem_range'_1] at hp
    exact (isStraight_iff T).mp h p hp.1 (by omega)
  have perm := (List.subperm_of_subset List.nodup_range' sub).perm_of_length_le (by simp)
  intro h0
  have := perm.mem_iff.mpr h0
  rw [List.mem_range'_1] at this
  omega

/-- A call of `permute` succeeds exactly where the table fits. -/
theorem callPermute_ok_iff {n : Nat} (s : BitString) (T : Vector Nat n) :
    (∃ t, callPermute s T = .ok t) ↔ fitsTable s.width T = true := by
  unfold callPermute; split <;> simp_all

/-- The positions of a composition of two permutations. -/
theorem bitAt_permute_permute {w m n : Nat} (s : BitVec w) (T : Vector Nat m) (U : Vector Nat n) {p : Nat}
    (h1 : 1 ≤ p) (h2 : p ≤ n) (h3 : 1 ≤ U.getD (p - 1) 0) (h4 : U.getD (p - 1) 0 ≤ m) :
    bitAt (permute (permute s T) U) p = bitAt s (T.getD (U.getD (p - 1) 0 - 1) 0) := by
  rw [bitAt_permute _ _ h1 h2, bitAt_permute _ _ h3 h4]

/-- Permuting twice is the identity when the tables say so at every position. -/
theorem permute_permute_eq_self {w m : Nat} (T : Vector Nat m) (U : Vector Nat w)
    (h : ∀ i : Fin w, 1 ≤ U.getD i.val 0 ∧ U.getD i.val 0 ≤ m ∧ T.getD (U.getD i.val 0 - 1) 0 = i.val + 1) (s : BitVec w) :
    permute (permute s T) U = s := by
  refine eq_of_bitAt_eq fun p h1 h2 => ?_
  obtain ⟨ha, hb, hc⟩ := h ⟨p - 1, by omega⟩
  simp only at ha hb hc
  rw [bitAt_permute_permute s T U h1 h2 ha hb, hc, Nat.sub_add_cancel h1]

theorem permute_fp_ip (b : Block) : permute (permute b Tables.IP) Tables.FP = b :=
  permute_permute_eq_self _ _ (by decide +kernel) b

theorem permute_ip_fp (b : Block) : permute (permute b Tables.FP) Tables.IP = b :=
  permute_permute_eq_self _ _ (by decide +kernel) b

/-- The register bits of L ++ R: R below, L above. -/
theorem getLsbD_halves (a b : Half) (i : Nat) :
    (show Block from a ++ b).getLsbD i = if i < 32 then b.getLsbD i else a.getLsbD (i - 32) :=
  BitVec.getLsbD_append (x := a) (y := b)

@[simp] theorem hi32_append (a b : Half) : hi32 (a ++ b) = a := by
  refine BitVec.eq_of_getLsbD_eq fun i hi => ?_
  rw [hi32, BitVec.getLsbD_extractLsb', (getLsbD_halves a b (32 + i) :)]
  simp [hi]

@[simp] theorem lo32_append (a b : Half) : lo32 (a ++ b) = b := by
  refine BitVec.eq_of_getLsbD_eq fun i hi => ?_
  rw [lo32, BitVec.getLsbD_extractLsb', (getLsbD_halves a b (0 + i) :)]
  simp [hi]

@[simp] theorem hi32_append_lo32 (b : Block) : hi32 b ++ lo32 b = b := by
  refine BitVec.eq_of_getLsbD_eq fun i hi => ?_
  refine (getLsbD_halves (hi32 b) (lo32 b) i).trans ?_
  by_cases h : i < 32
  · simp [lo32, h]
  · simp [hi32, h, show i - 32 < 32 by omega, show 32 + (i - 32) = i by omega]

/-- The wired rotation is the cyclic one. -/
theorem rotateBits_eq_rotateLeft {w : Nat} (s : BitVec w) {n : Nat} (h : n < w) : rotateBits s n = s.rotateLeft n := by
  rw [BitVec.rotateLeft_def, Nat.mod_eq_of_lt h, rotateBits]

theorem rotateBits_zero {w : Nat} (s : BitVec w) : rotateBits s 0 = s := by
  ext i hi; simp [rotateBits]

theorem rotateLeft_rotateLeft {w : Nat} (x : BitVec w) (a b : Nat) :
    (x.rotateLeft a).rotateLeft b = x.rotateLeft (a + b) := by
  rcases Nat.eq_zero_or_pos w with rfl | hw
  · exact BitVec.of_length_zero.trans BitVec.of_length_zero.symm
  refine BitVec.eq_of_getMsbD_eq fun i hi => ?_
  simp only [BitVec.getMsbD_rotateLeft, hi, decide_true, Bool.true_and, Nat.mod_lt _ hw]
  congr 1
  simp [Nat.add_mod, Nat.add_left_comm, Nat.add_comm]

theorem rotateLeft_zero {w : Nat} (x : BitVec w) : x.rotateLeft 0 = x := by
  refine BitVec.eq_of_getMsbD_eq fun i hi => ?_
  simp [BitVec.getMsbD_rotateLeft, hi, Nat.mod_eq_of_lt hi]

theorem rotateLeft_width {w : Nat} (x : BitVec w) : x.rotateLeft w = x := by
  refine BitVec.eq_of_getMsbD_eq fun i hi => ?_
  simp [BitVec.getMsbD_rotateLeft, hi, Nat.mod_eq_of_lt hi]

/-- Rotation leaves a constant string alone. -/
theorem rotateBits_constant {x : KeyHalf} (h : x = 0 ∨ x = BitVec.allOnes 28) {n : Nat} (hn : n < 28) :
    rotateBits x n = x := by
  rcases h with rfl | rfl <;> interval_cases n <;> decide

/-- The last four register bits of a concatenation. -/
theorem low_nibble {w : Nat} (a : BitVec w) (b : BitVec 4) : (a ++ b).extractLsb' 0 4 = b := by
  refine BitVec.eq_of_getLsbD_eq fun i hi => ?_
  rw [BitVec.getLsbD_extractLsb', BitVec.getLsbD_append]
  simp [hi]

/-- Any other four register bits of a concatenation with four bits. -/
theorem high_nibble {w : Nat} (a : BitVec w) (b : BitVec 4) (k : Nat) :
    (a ++ b).extractLsb' (4 + k) 4 = a.extractLsb' k 4 := by
  refine BitVec.eq_of_getLsbD_eq fun i hi => ?_
  rw [BitVec.getLsbD_extractLsb', BitVec.getLsbD_append, BitVec.getLsbD_extractLsb']
  simp [hi, show ¬ 4 + k + i < 4 by omega]
  congr 1; omega

/-- The value of a hexadecimal digit. -/
theorem hexDigit_getElem? {v : Nat} (h : v < 16) :
    ['0', '1', '2', '3', '4', '5', '6', '7', '8', '9', 'a', 'b', 'c', 'd', 'e', 'f'][v]? = some (hexDigit v) := by
  interval_cases v <;> rfl

/-! ### Register files of sixteen entries -/

theorem get_set {α : Type} (v : Vector α 16) (i j : Round) (x : α) :
    (v.set i x).get j = if j = i then x else v.get j := by
  show (v.set i x)[j.val] = _
  rw [Vector.getElem_set]
  by_cases h : i = j
  · simp [h]
  · rw [if_neg (by simpa [Fin.ext_iff] using h), if_neg (Ne.symm h)]; rfl

theorem get_eq_getD {α : Type} (v : Vector α 16) (i : Round) (d : α) : v.get i = v.getD i.val d := by
  simp [Vector.getD, Vector.get]

/-! ### The functional key schedule and engine -/

theorem shiftAmount_eq (i : Round) : shiftAmount i = Tables.SHIFTS.get i := by
  have key : ∀ x : Fin 16, Tables.SHIFTS.getD x.val 0 = Tables.SHIFTS.get x := by decide
  exact key i

theorem shiftAmount_lt (n : Nat) : shiftAmount n < 28 := by
  by_cases h : n < 16
  · interval_cases n <;> decide
  · simp [shiftAmount, Vector.getD, h]

theorem keyHalves_succ (master : Block) (n : Nat) :
    keyHalves master (n + 1) = rotateHalves (shiftAmount n) (keyHalves master n) := rfl

theorem roundKeys_get (master : Block) (i : Round) : (roundKeys master).get i = roundKey master i.val := by
  simp [roundKeys]

/-- Only what PC1 keeps of the master key matters (43_key_schedule R142). -/
theorem roundKeys_congr {k k' : Block} (h : permute k Tables.PC1 = permute k' Tables.PC1) : roundKeys k = roundKeys k' := by
  have halves : ∀ n, keyHalves k n = keyHalves k' n := by
    intro n
    induction n with
    | zero => simp [keyHalves, h]
    | succ n ih => simp [keyHalves, ih]
  simp [roundKeys, roundKey, halves]

theorem reverseKeys_get (ks : Vector RoundKey 16) (i : Round) : (reverseKeys ks).get i = ks.get i.rev := by
  simp [reverseKeys]

theorem feistelHalves_succ (f : Half → RoundKey → Half) (b : Block) (ks : Vector RoundKey 16) (n : Nat) :
    feistelHalves f b ks (n + 1) = roundPair f (ks.getD n 0) (feistelHalves f b ks n) := rfl

theorem feistelTrace_get (f : Half → RoundKey → Half) (b : Block) (ks : Vector RoundKey 16) (i : Round) :
    (feistelTrace f b ks).get i =
      (feistelHalves f b ks (i.val + 1)).1 ++ (feistelHalves f b ks (i.val + 1)).2 := by
  simp [feistelTrace]

/-- The halves depend on the round function only at the keys used. -/
theorem feistelHalves_congr (f g : Half → RoundKey → Half) (b : Block) (ks ks' : Vector RoundKey 16)
    (h : ∀ n r, f r (ks.getD n 0) = g r (ks'.getD n 0)) (n : Nat) : feistelHalves f b ks n = feistelHalves g b ks' n := by
  induction n with
  | zero => rfl
  | succ n ih => simp only [feistelHalves, ih, roundPair, h]

end Sys2Proof.Machine
end

