-- ==== Sys2Proof/Laws/Invariant.lean ====
section
/-! SUPPORT. Each shared operation keeps the invariant of the block (Safety's `State.Inv`). -/

namespace Sys2Proof.Machine

/-- The invariant speaks of nothing but these nine fields. -/
theorem inv_congr {s t : State} (h1 : t.status = s.status) (h2 : t.phase = s.phase) (h3 : t.idx = s.idx)
    (h4 : t.opl = s.opl) (h5 : t.verl = s.verl) (h6 : t.cmd = s.cmd) (h7 : t.rk = s.rk) (h8 : t.trace = s.trace)
    (h9 : t.dout = s.dout) (h : s.Inv) : t.Inv := by
  obtain ⟨⟨a1,a2,a3,a4,a5⟩, ⟨b1,b2,b3⟩, ⟨c1,c2,c3,c4,c5⟩⟩ := h
  constructor
  · constructor <;> simpa only [h1, h2]
  · constructor <;> simpa only [h1, h2, h3, h4, h5, h6]
  · constructor <;> simpa only [h1, h2, h3, h7, h8, h9]

theorem heldBelow_set {w : Nat} {f : Vector (Option (BitVec w)) 16} {i : Round} {x : BitVec w}
    (h : heldBelow f i.val) : heldBelow (f.set i (some x)) (i.val + 1) := by
  intro j hj
  simp only [Vector.get_eq_getElem, Vector.getElem_set]
  split
  · rfl
  · rename_i hne; exact h j (by omega)

theorem heldBelow_all {w : Nat} {f : Vector (Option (BitVec w)) 16} (h : heldBelow f 16) : allHeld f :=
  fun j => h j j.isLt

theorem allHeld_set {w : Nat} {f : Vector (Option (BitVec w)) 16} {i : Round} {x : BitVec w}
    (h : allHeld f) : allHeld (f.set i (some x)) := by
  intro j
  simp only [Vector.get_eq_getElem, Vector.getElem_set]
  split
  · rfl
  · exact h j

theorem sequencerStep_inv {s : State} (h : s.Inv) : (sequencerStep s).Inv := by
  obtain ⟨⟨a1,a2,a3,a4,a5⟩, ⟨b1,b2,b3⟩, ⟨c1,c2,c3,c4,c5⟩⟩ := h
  rcases sequencerStep_cases s with ⟨hp, h⟩ | ⟨hp, hi, h⟩ | ⟨hp, hi, ho, h⟩ | ⟨hp, hi, ho, h⟩ | ⟨hp, hi, h⟩ | ⟨hp, hi, h⟩ <;> rw [h]
  · exact ⟨⟨a1,a2,a3,a4,a5⟩, ⟨b1,b2,b3⟩, ⟨c1,c2,c3,c4,c5⟩⟩
  · have hv : (s.idx + 1).val = s.idx.val + 1 := by have := s.idx.isLt; rw [Fin.val_add]; show (s.idx.val + 1) % 16 = _; omega
    refine ⟨⟨?_, ?_, ?_, ?_, ?_⟩, ⟨?_, ?_, ?_⟩, ⟨?_, ?_, ?_, ?_, ?_⟩⟩ <;> simp_all
    exact heldBelow_set c2
  · have hk : allHeld (ksStep 15 s).rk := by
      rw [hi] at c2; simp only [ksStep_fields]; exact heldBelow_all (heldBelow_set (i := 15) (c2 hp))
    refine ⟨⟨?_, ?_, ?_, ?_, ?_⟩, ⟨?_, ?_, ?_⟩, ⟨?_, ?_, ?_, ?_, ?_⟩⟩ <;> simp_all
  · have hk : allHeld (ksStep 15 s).rk := by
      rw [hi] at c2; simp only [ksStep_fields]; exact heldBelow_all (heldBelow_set (i := 15) (c2 hp))
    refine ⟨⟨?_, ?_, ?_, ?_, ?_⟩, ⟨?_, ?_, ?_⟩, ⟨?_, ?_, ?_, ?_, ?_⟩⟩ <;> simp_all
    intro j hj; simp at hj
  · have hv : (s.idx + 1).val = s.idx.val + 1 := by have := s.idx.isLt; rw [Fin.val_add]; show (s.idx.val + 1) % 16 = _; omega
    refine ⟨⟨?_, ?_, ?_, ?_, ?_⟩, ⟨?_, ?_, ?_⟩, ⟨?_, ?_, ?_, ?_, ?_⟩⟩ <;> simp_all
    exact heldBelow_set c5
  · have hk : allHeld (rndStep 15 s).trace := by
      rw [hi] at c5; simp only [rndStep_fields]; exact heldBelow_all (heldBelow_set (i := 15) (c5 hp))
    refine ⟨⟨?_, ?_, ?_, ?_, ?_⟩, ⟨?_, ?_, ?_⟩, ⟨?_, ?_, ?_, ?_, ?_⟩⟩ <;> simp_all

theorem issue_inv {s : State} (w : BitVec 16) (hp : s.phase = .idle) (h : s.Inv) : (issue w s).Inv := by
  obtain ⟨⟨a1,a2,a3,a4,a5⟩, ⟨b1,b2,b3⟩, ⟨c1,c2,c3,c4,c5⟩⟩ := h
  rcases issue_cases w s with ⟨e, he, h⟩ | ⟨a, ha, h⟩ <;> rw [h]
  · have := (validate_error_pair he).1
    refine ⟨⟨?_, ?_, ?_, ?_, ?_⟩, ⟨?_, ?_, ?_⟩, ⟨?_, ?_, ?_, ?_, ?_⟩⟩ <;> simp_all
  · obtain ⟨op, ver, hw, _, hacc⟩ := validate_ok ha
    subst hw
    have hz : ∀ {w : Nat} (f : Vector (Option (BitVec w)) 16), heldBelow f 0 := fun f j hj => absurd hj (by omega)
    have e1 : statusBusy 1#16 = true := by decide
    have e2 : statusDone 1#16 = false := by decide
    have e3 : statusErr 1#16 = 0 := by decide
    have e4 : statusErrArg 1#16 = 0 := by decide
    have e5 : statusReserved 1#16 = 0 := by decide
    have f1 : statusBusy 2#16 = false := by decide
    have f3 : statusErr 2#16 = 0 := by decide
    have f4 : statusErrArg 2#16 = 0 := by decide
    have f5 : statusReserved 2#16 = 0 := by decide
    have g : (0#3, 0#3) ∈ errorPairs := by decide
    rcases acceptVersion_ok hacc with ⟨rfl, rfl⟩ | ⟨v, hv, ⟨rfl, rfl⟩ | ⟨rfl, rfl⟩ | ⟨rfl, rfl⟩⟩ <;> simp only [startCommand, startEnc, startDec, startKeygen] <;>
    refine ⟨⟨?_, ?_, ?_, ?_, ?_⟩, ⟨?_, ?_, ?_⟩, ⟨?_, ?_, ?_, ?_, ?_⟩⟩ <;> simp_all [RunOp.cmdOp]

theorem setOverrun_inv {s : State} (h : s.Inv) : (setOverrun s).Inv := by
  obtain ⟨⟨a1,a2,a3,a4,a5⟩, ⟨b1,b2,b3⟩, ⟨c1,c2,c3,c4,c5⟩⟩ := h
  refine ⟨⟨?_, ?_, ?_, ?_, ?_⟩, ⟨?_, ?_, ?_⟩, ⟨?_, ?_, ?_, ?_, ?_⟩⟩ <;> simp_all

theorem writeCmd_inv {s : State} (w : BitVec 16) (h : s.Inv) : (writeCmd w s).Inv := by
  by_cases hp : s.phase = .idle
  · rw [writeCmd_idle hp]; exact issue_inv w hp h
  · rw [writeCmd_busy hp]; exact setOverrun_inv (sequencerStep_inv h)

end Sys2Proof.Machine
end

