-- ==== Sys2Proof/Laws/PerInstr.lean ====
section
/-! SUPPORT. Facts proved for each instruction: its encoding is the one of its row of spec/opcode_table.json. -/

namespace Sys2Proof.Laws.TableRow

/-- The word with the bits of `mask` equal to `match'`, in a command word or in an access descriptor. -/
def fits (e : Encoded) (mask match' : Nat) : Prop :=
  match e with
  | .cmd16 word => word &&& BitVec.ofNat 16 mask = BitVec.ofNat 16 match'
  | .hostAcc descriptor _ _ => descriptor &&& BitVec.ofNat 8 mask = BitVec.ofNat 8 match'

/-- The instruction is encoded in its row's format, with the row's fixed bits. -/
def Statement (i : Instr) : Prop :=
  match i with
  | .enc ver => encode i = .cmd16 (commandWord .enc ver) ∧ fits (encode i) 0xFF0F 0x0001
  | .dec ver => encode i = .cmd16 (commandWord .dec ver) ∧ fits (encode i) 0xFF0F 0x0002
  | .keygen ver => encode i = .cmd16 (commandWord .keygen ver) ∧ fits (encode i) 0xFF0F 0x0003
  | .feval ver => encode i = .cmd16 (commandWord .feval ver) ∧ fits (encode i) 0xFF0F 0x0004
  | .wr _ data len => (∃ d, encode i = .hostAcc d data len) ∧ fits (encode i) 0xC0 0x80
  | .rd _ => (∃ d, encode i = .hostAcc d 0 0) ∧ fits (encode i) 0xC0 0x40
  | .wrRd _ data len => (∃ d, encode i = .hostAcc d data len) ∧ fits (encode i) 0xC0 0xC0
  | .nop _ => (∃ d, encode i = .hostAcc d 0 0) ∧ fits (encode i) 0xC0 0x00

theorem commandWord_fits (op : CmdOp) (ver : BitVec 4) :
    commandWord op ver &&& 0xFF0F = 0#12 ++ op.code := by
  revert ver; cases op <;> decide

theorem accessDescriptor_fits (wr rd : Bool) (index : BitVec 6) :
    accessDescriptor wr rd index &&& 0xC0 = BitVec.ofBool wr ++ BitVec.ofBool rd ++ 0#6 := by
  revert index; cases wr <;> cases rd <;> decide

theorem enc (ver : BitVec 4) : Statement (.enc ver) := ⟨rfl, commandWord_fits .enc ver⟩

theorem dec (ver : BitVec 4) : Statement (.dec ver) := ⟨rfl, commandWord_fits .dec ver⟩

theorem keygen (ver : BitVec 4) : Statement (.keygen ver) := ⟨rfl, commandWord_fits .keygen ver⟩

theorem feval (ver : BitVec 4) : Statement (.feval ver) := ⟨rfl, commandWord_fits .feval ver⟩

theorem wr (reg : Reg) (data : BitVec 64) (len : BitVec 8) : Statement (.wr reg data len) :=
  ⟨⟨_, rfl⟩, accessDescriptor_fits true false (encodeReg reg)⟩

theorem rd (reg : Reg) : Statement (.rd reg) := ⟨⟨_, rfl⟩, accessDescriptor_fits false true (encodeReg reg)⟩

theorem wrRd (reg : Reg) (data : BitVec 64) (len : BitVec 8) : Statement (.wrRd reg data len) :=
  ⟨⟨_, rfl⟩, accessDescriptor_fits true true (encodeReg reg)⟩

theorem nop (index : BitVec 6) : Statement (.nop index) := ⟨⟨_, rfl⟩, accessDescriptor_fits false false index⟩

end Sys2Proof.Laws.TableRow
end

