-- ==== Sys2Proof/Laws/Run.lean ====
section
/-! SUPPORT. Runs of several steps, and what the host can do to a running command: nothing but STATUS.OVR, the operand registers
and the read ports (40_command_model R82; 20_memory R53). -/

namespace Sys2Proof.Machine

/-! ### Several steps -/

theorem run_succ_eq (M : Host.Core) (m : Nat) (s : M.State) :
    M.run (m + 1) s =
      match M.step s with
      | .next s' => M.run m s'
      | .fault f => .fault f
      | .refused r => .refused r := rfl

theorem runSteps_of_next {m : Nat} {s s' : State} (h : step s = .next s') : runSteps (m + 1) s = runSteps m s' := by
  have := run_succ_eq core m s
  rw [show core.step s = .next s' from h] at this
  exact this

theorem runSteps_of_fault {m : Nat} {s : State} {f : Fault} (h : step s = .fault f) : runSteps (m + 1) s = .fault f := by
  have := run_succ_eq core m s
  rw [show core.step s = .fault f from h] at this
  exact this

theorem runSteps_of_refused {m : Nat} {s : State} {f : Refusal} (h : step s = .refused f) : runSteps (m + 1) s = .refused f := by
  have := run_succ_eq core m s
  rw [show core.step s = .refused f from h] at this
  exact this

/-- One more step at the end of a run. -/
theorem runSteps_succ (n : Nat) (s t : State) (h : runSteps n s = .next t) : runSteps (n + 1) s = step t := by
  induction n generalizing s with
  | zero =>
    have : s = t := by cases h; rfl
    subst this
    cases e : step s with
    | next s' => rw [runSteps_of_next e]; rfl
    | fault s' => rw [runSteps_of_fault e]
    | refused s' => rw [runSteps_of_refused e]
  | succ n ih =>
    cases hs : step s with
    | next s' => rw [runSteps_of_next hs] at h ⊢; exact ih s' h
    | fault f => rw [runSteps_of_fault hs] at h; cases h
    | refused r => rw [runSteps_of_refused hs] at h; cases h

/-! ### What the host leaves of a running command -/

/-- The two states agree on everything a running command reads or writes, and on STATUS but for OVR. -/
structure SameRun (a b : State) : Prop where
  cmd : a.cmd = b.cmd
  fout : a.fout = b.fout
  dout : a.dout = b.dout
  rk : a.rk = b.rk
  trace : a.trace = b.trace
  phase : a.phase = b.phase
  idx : a.idx = b.idx
  opl : a.opl = b.opl
  verl : a.verl = b.verl
  c : a.c = b.c
  d : a.d = b.d
  l : a.l = b.l
  r : a.r = b.r
  busy : statusBusy a.status = statusBusy b.status
  done : statusDone a.status = statusDone b.status
  err : statusErr a.status = statusErr b.status
  arg : statusErrArg a.status = statusErrArg b.status

theorem setPorts_sameRun (rd : Option Reg) (b a : State) : SameRun (setPorts rd b a) a := by
  cases rd <;> constructor <;> rfl

theorem SameRun.trans {a b c : State} (h : SameRun a b) (g : SameRun b c) : SameRun a c := by
  obtain ⟨⟩ := h; obtain ⟨⟩ := g; constructor <;> simp_all

/-- Whatever the host does in a cycle, the running command makes its own step (40_command_model R82, R84). -/
theorem edgeState_sameRun (i : Instr) {s : State} (hp : s.phase ≠ .idle) :
    SameRun (edgeState i s) (sequencerStep s) := by
  have wc : ∀ w, SameRun (writeCmd w s) (sequencerStep s) := by
    intro w; rw [writeCmd_busy hp]; constructor <;> simp [setOverrun]
  have wr : ∀ reg data len, SameRun (writeReg reg data len s) (sequencerStep s) := by
    intro reg data len
    cases reg <;> first | exact wc _ | (constructor <;> rfl)
  cases i <;> first | exact wc _ | exact wr _ _ _ | (constructor <;> rfl)

theorem edgeState_hostProgram (i : Instr) {s : State} (hp : s.phase ≠ .idle) :
    (edgeState i s).hostProgram = s.hostProgram := by
  have wc : ∀ w, (writeCmd w s).hostProgram = s.hostProgram := by
    intro w; rw [writeCmd_busy hp]; simp [setOverrun]
  have wr : ∀ reg data len, (writeReg reg data len s).hostProgram = s.hostProgram := by
    intro reg data len
    cases reg <;> first | exact wc _ | simp [writeReg]
  cases i <;> first | exact wc _ | exact wr _ _ _ | simp [edgeState]

theorem exec_busy (i : Instr) {s t : State} (hp : s.phase ≠ .idle) (h : exec i s = .next t) :
    t.hostProgram = s.hostProgram ∧ SameRun t (sequencerStep s) := by
  rw [exec_eq_next_iff] at h; subst h
  refine ⟨?_, (setPorts_sameRun _ _ _).trans (edgeState_sameRun i hp)⟩
  rw [← edgeState_hostProgram i hp]; cases readOf i <;> rfl

theorem sequencerStep_withLines (s : State) (lines : List HostLine) :
    SameRun (sequencerStep { s with hostProgram := lines }) (sequencerStep s) := by
  have : sequencerStep { s with hostProgram := lines } = { sequencerStep s with hostProgram := lines } := by
    unfold sequencerStep; dsimp only
    split
    · rfl
    · split_ifs <;> rfl
    · split_ifs <;> rfl
  rw [this]; constructor <;> rfl

/-- A step of a running command that no reset comes into. -/
theorem busy_step {n : Nat} {s : State} (hp : s.phase ≠ .idle) (hn : noResetFor (n + 1) s) :
    ∃ t, step s = .next t ∧ noResetFor n t ∧ SameRun t (sequencerStep s) := by
  cases hl : s.hostProgram with
  | nil =>
    rw [step_of_empty hl]
    obtain ⟨h1, h2⟩ := exec_busy (.nop 0) hp (exec_eq _ _)
    refine ⟨_, exec_eq _ _, ?_, h2⟩
    intro p h; rw [h1, hl] at h; simp at h
  | cons line rest =>
    cases line with
    | drive p =>
      have hr : p.rst = false := hn p (by rw [hl]; simp)
      rw [step_of_drive hl hr]
      obtain ⟨h1, h2⟩ := exec_busy (s := { s with hostProgram := rest }) (cycleInstr p) hp (exec_eq _ _)
      refine ⟨_, exec_eq _ _, ?_, h2.trans (sequencerStep_withLines s rest)⟩
      intro q h; rw [h1] at h
      exact hn q (by rw [hl]; simp at h ⊢; exact .inr h)
    | wait =>
      cases hb : statusBusy s.status with
      | true =>
        rw [step_of_wait_busy hl hb]
        obtain ⟨h1, h2⟩ := exec_busy (.rd .status) hp (exec_eq _ _)
        refine ⟨_, exec_eq _ _, ?_, h2⟩
        intro q h; rw [h1] at h
        exact hn q (List.mem_of_mem_take (i := n) (by rw [List.take_take]; simpa using h))
      | false =>
        rw [step_of_wait_done hl hb]
        obtain ⟨h1, h2⟩ := exec_busy (s := { s with hostProgram := rest }) (.rd .status) hp (exec_eq _ _)
        refine ⟨_, exec_eq _ _, ?_, h2.trans (sequencerStep_withLines s rest)⟩
        intro q h; rw [h1] at h
        exact hn q (by rw [hl]; simp at h ⊢; exact h)

end Sys2Proof.Machine
end

