-- ==== Sys2Proof/Tests/Slice0.lean ====
section
/-! SUPPORT. The model's own tests. Every expected value is written out from the spec: the encodings of 30_encoding, the tables
and programs of 95_test_vectors. Then, for each statement that has hypotheses, concrete values that meet them. -/

namespace Sys2Proof.Machine.Tests

/-! ### Well-formedness refuses an ill-formed term (20_memory R44: 0x02 is DIN, 0x10 is RK[0], 0x2F is TRACE[15]) -/

theorem test_wellFormed_refuses_wr : (Instr.wr (.unmapped 0x02) 0 0).wellFormed = false := by decide

theorem test_wellFormed_refuses_rd : (Instr.rd (.unmapped 0x10)).wellFormed = false := by decide

theorem test_wellFormed_refuses_wrRd : (Instr.wrRd (.unmapped 0x2F) 0 0).wellFormed = false := by decide

theorem test_wellFormed_unmapped_edges :
    [0x07, 0x08, 0x0F, 0x10, 0x2F, 0x30, 0x3F].map (fun a => isUnmapped (BitVec.ofNat 6 a)) =
      [false, true, true, false, false, true, true] := by decide

/-! ### Decoding, one word per constructor, bit by bit (30_encoding R60, R61, R67) -/

/-- RSV 00000000, VER 0011, OP 0001. -/
theorem test_decode_enc : decode (.cmd16 0b0000000000110001) = .ok (.enc 3) := by decide

/-- RSV 00000000, VER 0010, OP 0010. -/
theorem test_decode_dec : decode (.cmd16 0b0000000000100010) = .ok (.dec 2) := by decide

/-- RSV 00000000, VER 1111, OP 0011. -/
theorem test_decode_keygen : decode (.cmd16 0b0000000011110011) = .ok (.keygen 15) := by decide

/-- RSV 00000000, VER 0001, OP 0100. -/
theorem test_decode_feval : decode (.cmd16 0b0000000000010100) = .ok (.feval 1) := by decide

/-- `host_wr` 1, `host_rd` 0, index 000101 (RKEY). -/
theorem test_decode_wr :
    decode (.hostAcc 0b10000101 0x1B02EFFC7072 48) = .ok (.wr .rkey 0x1B02EFFC7072 48) := by decide

/-- `host_wr` 0, `host_rd` 1, index 101111 (TRACE[15]). -/
theorem test_decode_rd : decode (.hostAcc 0b01101111 0 0) = .ok (.rd (.trace 15)) := by decide

/-- `host_wr` 1, `host_rd` 1, index 000011 (KEY). -/
theorem test_decode_wrRd : decode (.hostAcc 0b11000011 7 64) = .ok (.wrRd .key 7 64) := by decide

/-- `host_wr` 0, `host_rd` 0, any index. -/
theorem test_decode_nop : decode (.hostAcc 0b00111111 0 0) = .ok (.nop 0x3F) := by decide

/-- OP 0x0 and OP 0x5 to 0xF are illegal, and so is any RSV but 0 (R64, R66). -/
theorem test_decode_rejects :
    [0x0000, 0x0005, 0x000F, 0x0105, 0x8001].map (fun w => (decode (.cmd16 (BitVec.ofNat 16 w))).toOption) =
      [none, none, none, none, none] := by decide

/-! ### The functional layer (95_test_vectors section 2) -/

/-- P4, P6, P10 to P13, P15, P16. -/
theorem test_permute_tables :
    permute (0x8000000000000000 : Block) Tables.IP = 0x0000000001000000 ∧
    permute (0x8000000000000000 : Block) Tables.FP = 0x0000000000000040 ∧
    permute (0x12345678 : Half) Tables.E = 0x0A41A82AC3F0 ∧ permute (0x80000000 : Half) Tables.P = 0x00800000 ∧
    permute (0x8000000000000000 : Block) Tables.PC1 = 0x01000000000000 ∧
    permute (0x0000000000000002 : Block) Tables.PC1 = 0x00000008000000 ∧
    permute (0x80000000000000 : BitVec 56) Tables.PC2 = 0x080000000000 ∧
    permute (0x00000000000001 : BitVec 56) Tables.PC2 = 0x000000000100 := by decide +kernel

/-- P3, P20, P22, P23. -/
theorem test_calls_fail :
    callXor ⟨32, 0⟩ ⟨48, 0⟩ = .error .lengthMismatch ∧ callRotateLeft ⟨28, 1⟩ 28 = none ∧
    callToHex ⟨6, 0⟩ = .error .invalidLength ∧ callPermute ⟨63, 0⟩ Tables.IP = .error .invalidLength := by decide +kernel

/-- B1 to B9. -/
theorem test_sbox :
    sboxLane 0 0b000000 = 14 ∧ sboxLane 0 0b111111 = 13 ∧ sboxLane 0 0b100001 = 15 ∧ sboxLane 0 0b011110 = 7 ∧
    sboxLane 0 0b000001 = 0 ∧ sboxLane 0 0b100000 = 4 ∧ sbox 0x000000000000 = 0xEFA72C4D ∧
    sbox 0xFFFFFFFFFFFF = 0xD9CE3DCB ∧ sbox 0x6117BA866527 = 0x5C82B597 := by decide +kernel

/-- Table 2.3: RK of KEY = 0x133457799BBCDFF1. -/
theorem test_roundKeys :
    (roundKeys 0x133457799BBCDFF1).toList =
      [0x1B02EFFC7072, 0x79AED9DBC9E5, 0x55FC8A42CF99, 0x72ADD6DB351D]
        ++ [0x7CEC07EB53A8, 0x63A53E507B2F, 0xEC84B7F618BC, 0xF78A3AC13BFB]
        ++ [0xE0DBEBEDE781, 0xB1F347BA464F, 0x215FD3DED386, 0x7571F59467E9]
        ++ [0x97C5D1FABA41, 0x5F43B7F2E73A, 0xBF918D3D3F0A, 0xCB3D8B0E17F5] := by decide +kernel

/-- F3 and F8, canonical and under the reference F_VARIANT. -/
theorem test_roundFunction :
    [CipherVersion.canonical, .altered .v1, .altered .v2, .altered .v3].map (muxF variantRef · 0xF0AAF0AA 0x1B02EFFC7072) =
      [0x234AA9BB, 0x275BC23A, 0x84ABBD45, 0x5C82B597] ∧
    [CipherVersion.canonical, .altered .v1, .altered .v2, .altered .v3].map (muxF variantRef · 0x12345678 0x123456789ABC) =
      [0x6A335997, 0x5101D5DD, 0xC56257E6, 0x17E432DB] := by decide +kernel

/-- K1, both ways (1.2). -/
theorem test_known_answer :
    cipher variantRef false .canonical 0x0123456789ABCDEF 0x133457799BBCDFF1 = 0x85E813540F0AB405 ∧
    cipher variantRef true .canonical 0x85E813540F0AB405 0x133457799BBCDFF1 = 0x0123456789ABCDEF := by decide +kernel

/-- Table 2.6, versions 2 and 3 of the reference. -/
theorem test_altered_versions :
    cipher variantRef false (.altered .v2) 0x0123456789ABCDEF 0x133457799BBCDFF1 = 0xD6FF4EA940E9EEFA ∧
    cipher variantRef false (.altered .v3) 0x0123456789ABCDEF 0x133457799BBCDFF1 = 0x1C3BA44396E4779D := by decide +kernel

/-! ### One step of each instruction -/

/-- The outcome is a next state that meets the check. -/
def nextMeets (o : Host.Outcome State Fault Refusal) (check : State → Bool) : Bool :=
  match o with
  | .next t => check t
  | .fault _ => false
  | .refused _ => false

/-- An idle block with every operand register ready: KEY and DIN of K1, HALF and RKEY of F3. -/
def ready : State :=
  { State.reset with
    din := ⟨0x0123456789ABCDEF, 64⟩
    key := ⟨0x133457799BBCDFF1, 64⟩
    half := ⟨0xF0AAF0AA, 32⟩
    rkey := ⟨0x1B02EFFC7072, 48⟩ }

/-- A run at IDX = i of a phase, with the halves of K1 loaded, RK of table 2.3 in place and results of an earlier run. -/
def running (op : RunOp) (ph : Phase) (i : Round) : State :=
  { ready with
    cmd := commandWord op.cmdOp 0
    status := 0x0001
    phase := ph
    idx := i
    opl := op
    c := 0xF0CCAAF
    d := 0x556678F
    l := 0xCC00CCFF
    r := 0xF0AAF0AA
    rk := (roundKeys 0x133457799BBCDFF1).map some
    trace := Vector.replicate 16 (some 1)
    dout := some 2
    fout := some 3 }

/-- 2.5 and 2.3: L_0, R_0, C_0 and D_0 are loaded at the issue edge. -/
theorem test_enc_loads :
    nextMeets (exec (.enc 0) ready) (fun t => t.l == 0xCC00CCFF && t.r == 0xF0AAF0AA && t.c == 0xF0CCAAF && t.d == 0x556678F
      && t.phase == .ks && t.opl == .enc && t.status == 0x0001 && t.cmd == 0x0001) = true := by decide +kernel

/-- 2.8: from reset DIN fails first. -/
theorem test_enc_invalid_length :
    nextMeets (exec (.enc 0) State.reset) (fun t => t.status == 0x0112 && t.cmd == 0x0001 && t.phase == .idle) = true := by
  decide

/-- DEC latches OPL and VERL, and its round 0 (2.5, right column) takes RK[15]. -/
theorem test_dec_reverses_keys :
    nextMeets (exec (.dec 3) ready) (fun t => t.opl == .dec && t.verl == .altered .v3 && t.idx == 0) = true ∧
    nextMeets (exec (.nop 0) { running .dec .rnd 0 with l := 0x0A4CD995, r := 0x43423234 })
      (fun t => t.trace.get 0 == some 0x43423234C28C960D) = true := by decide +kernel

/-- 2.8: a version above 3 fails after the lengths. -/
theorem test_dec_unknown_version :
    nextMeets (exec (.dec 4) ready) (fun t => t.status == 0x0532 && t.cmd == 0x0042) = true := by decide

/-- G6: KEYGEN ignores VER. -/
theorem test_keygen_ignores_version :
    nextMeets (exec (.keygen 15) ready) (fun t => t.status == 0x0001 && t.phase == .ks && t.opl == .keygen
      && t.verl == .canonical && t.l == 0) = true := by decide +kernel

/-- 2.3, row 0: the key-schedule step. -/
theorem test_keygen_step :
    nextMeets (exec (.nop 0) (running .keygen .ks 0)) (fun t => t.c == 0xE19955F && t.d == 0xAACCF1E
      && t.rk.get 0 == some 0x1B02EFFC7072 && t.idx == 1 && t.phase == .ks) = true := by decide +kernel

/-- F3: FOUT at the issue edge. -/
theorem test_feval_canonical :
    nextMeets (exec (.feval 0) ready) (fun t => t.fout == some 0x234AA9BB && t.status == 0x0002 && t.phase == .idle) = true := by
  decide +kernel

/-- 2.8: HALF fails before RKEY. -/
theorem test_feval_invalid_length :
    nextMeets (exec (.feval 9) State.reset) (fun t => t.status == 0x0312 && t.fout == none) = true := by decide

/-- The data above the register's width is dropped, the length is stored verbatim (46_host_access R200; 20_memory R45). -/
theorem test_wr_truncates :
    nextMeets (exec (.wr .half 0xAAAAAAAA12345678 31) ready) (fun t => t.half == ⟨0x12345678, 31⟩ && t.din == ready.din) =
      true := by decide

/-- A CMD write while busy: OVR, and the run goes on (40_command_model R82). -/
theorem test_wr_overrun :
    nextMeets (exec (.wr .cmd 0x0004 16) (running .enc .ks 3)) (fun t => t.status == 0x0005 && t.cmd == 0x0001
      && t.idx == 4 && t.fout == some 3) = true := by decide +kernel

/-- 46_host_access R201, R203: RK is driven zero-extended with length 48. -/
theorem test_rd_rk :
    nextMeets (exec (.rd (.rk 15)) { running .enc .ks 0 with phase := .idle, status := 0x0002 })
      (fun t => t.hostRdata == 0x0000CB3D8B0E17F5 && t.hostRlen == 48) = true := by decide +kernel

/-- 20_memory R44: an unmapped index reads zero with length 0. -/
theorem test_rd_unmapped :
    nextMeets (exec (.rd (.unmapped 0x08)) ready) (fun t => t.hostRdata == 0 && t.hostRlen == 0) = true := by decide

/-- 46_host_access R204: the old value is read, the new one is stored. -/
theorem test_wrRd_old_value :
    nextMeets (exec (.wrRd .key 0x2222222222222222 64) ready) (fun t => t.hostRdata == 0x133457799BBCDFF1
      && t.hostRlen == 64 && t.key == ⟨0x2222222222222222, 64⟩) = true := by decide

/-- A command word written with both strobes is issued, and CMD before the edge is read. -/
theorem test_wrRd_cmd :
    nextMeets (exec (.wrRd .cmd 0x0005 16) ready) (fun t => t.hostRdata == 0 && t.hostRlen == 16 && t.cmd == 0x0005
      && t.status == 0x0642) = true := by decide

/-- 2.5, round 0 of ENC. -/
theorem test_nop_round :
    nextMeets (exec (.nop 0) (running .enc .rnd 0)) (fun t => t.trace.get 0 == some 0xF0AAF0AAEF4A6544
      && t.l == 0xF0AAF0AA && t.r == 0xEF4A6544 && t.idx == 1) = true := by decide +kernel

/-- 2.5, the last round of ENC: L_15 and R_15 give DOUT and completion. -/
theorem test_nop_last_round :
    nextMeets (exec (.nop 0) { running .enc .rnd 15 with l := 0xC28C960D, r := 0x43423234 })
      (fun t => t.dout == some 0x85E813540F0AB405 && t.trace.get 15 == some 0x434232340A4CD995
        && t.phase == .idle && t.status == 0x0002) = true := by decide +kernel

/-! ### Host programs (30_encoding R68, R69) -/

/-- The pseudo-instruction `encrypt` is two writes, the command, `wait` and a read. -/
theorem test_encrypt_expands :
    (AsmLine.encrypt 1 2 3).expand =
      [.drive ⟨false, true, false, 0x02, 1, 64⟩, .drive ⟨false, true, false, 0x03, 2, 64⟩]
        ++ [.drive ⟨false, true, false, 0x00, 0x0031, 0x10⟩, .wait, .drive ⟨false, false, true, 0x06, 0, 0⟩] := by decide

/-- An opcode-table word placed after reset is read back by the decoder's own numbering. -/
theorem test_tableWord : decodeTableWord 16 0x0031 = some (.enc 3) ∧ decodeTableWord 8 0x5F = some (.rd (.rk 15)) ∧
    decodeTableWord 16 0x0000 = none := by decide

/-! ### Witnesses: values that meet each statement's hypotheses -/

/-- DecodeOfEncodeIsTheInstruction: both edges of each unmapped range, and a mapped register. -/
theorem witness_wellFormed :
    (Instr.wr (.unmapped 0x08) 1 2).wellFormed = true ∧ (Instr.rd (.unmapped 0x0F)).wellFormed = true ∧
    (Instr.wrRd (.unmapped 0x30) 1 2).wellFormed = true ∧ (Instr.rd (.unmapped 0x3F)).wellFormed = true ∧
    (Instr.wr (.rk 15) 1 2).wellFormed = true ∧ (Instr.enc 15).wellFormed = true := by decide

/-- StepRunsTheDecodedInstruction: a driven cycle, no line, `wait` while busy and while not. -/
theorem witness_lines :
    ({ ready with hostProgram := [.drive (readCycle .dout)] } : State).hostProgram = .drive (readCycle .dout) :: [] ∧
    (readCycle .dout).rst = false ∧ ready.hostProgram = [] ∧
    ({ running .enc .ks 0 with hostProgram := [.wait] } : State).hostProgram = .wait :: [] ∧
    statusBusy (running .enc .ks 0).status = true ∧ statusBusy ready.status = false := by decide +kernel

/-- CycleCarriesTheDecodedInstruction, first clause: the upper data and the length do not matter. -/
theorem witness_cycle_command :
    decode (.cmd16 0x0031) = .ok (.enc 3) ∧ ((0xFFFF000000000031 : BitVec 64).setWidth 16 : BitVec 16) = 0x0031 ∧
    (⟨false, true, false, 0x00, 0xFFFF000000000031, 7⟩ : HostCycle).addr = 0x00 := by decide

/-- The same, second clause: a read, an illegal word written to CMD, and both strobes on CMD. -/
theorem witness_cycle_access :
    decode (.hostAcc (BitVec.ofBool false ++ BitVec.ofBool true ++ 0x06#6) 0 0) = .ok (.rd .dout) ∧
    decode (.hostAcc (BitVec.ofBool true ++ BitVec.ofBool false ++ 0x00#6) 0x0105 16) = .ok (.wr .cmd 0x0105 16) ∧
    (∀ j, decode (.cmd16 ((0x0105 : BitVec 64).setWidth 16)) = .ok j → ¬(true = true ∧ false = false ∧ 0x00#6 = 0x00)) ∧
    decode (.hostAcc (BitVec.ofBool true ++ BitVec.ofBool true ++ 0x00#6) 0x0001 16) = .ok (.wrRd .cmd 0x0001 16) := by
  refine ⟨by decide, by decide, fun j h => ?_, by decide⟩
  rw [show decode (.cmd16 ((0x0105 : BitVec 64).setWidth 16)) = .error (.reservedNotZero 1) by decide] at h
  cases h

/-- CmdWriteRunsItsCommand: the first opcode, and the last with a version above the enumeration. -/
theorem witness_cmd_write :
    decodeCommand ((0x0001 : BitVec 64).setWidth 16) = .ok (.enc, 0) ∧
    decodeCommand ((0xABCD0000000000F4 : BitVec 64).setWidth 16) = .ok (.feval, 15) := by decide

/-- ResetEdgeGivesTheResetState: in the middle of a run, with and without a read. -/
theorem witness_reset_edge :
    ({ running .dec .rnd 7 with hostProgram := [.drive resetCycle] } : State).hostProgram = .drive resetCycle :: [] ∧
    resetCycle.rst = true ∧ ({ readCycle .status with rst := true } : HostCycle).rst = true ∧
    ({ readCycle .status with rst := true } : HostCycle).rd = true := by decide +kernel

/-- EncStartsItsRun, DecStartsItsRun, KeygenStartsItsRun and FevalWritesTheRoundFunction: the first and the last version. -/
theorem witness_ready :
    ready.phase = .idle ∧ ready.din.len = 64 ∧ ready.key.len = 64 ∧ ready.half.len = 32 ∧ ready.rkey.len = 48 ∧
    versionOfTag (0 : BitVec 4).toNat = some .canonical ∧ versionOfTag (3 : BitVec 4).toNat = some (.altered .v3) := by decide

/-- FailureWritesOnlyCmdAndStatus: one word for each of the errors the block records. -/
theorem witness_failure :
    ready.phase = .idle ∧ validate ((0x0001 : BitVec 64).setWidth 16) State.reset = .error ⟨.invalidLength, .din⟩ ∧
    validate ((0x0041 : BitVec 64).setWidth 16) ready = .error ⟨.unknownVersion, .ver⟩ ∧
    validate ((0x0000 : BitVec 64).setWidth 16) ready = .error ⟨.illegalCommand, .cmd⟩ := by decide

/-- FailuresAreReportedInOrder: each of its seven clauses, at lengths next to the right one and at the first version too many. -/
theorem witness_failure_order :
    ({ ready with din := ⟨0, 63⟩ } : State).din.len ≠ 64 ∧ ({ ready with din := ⟨0, 65⟩ } : State).din.len ≠ 64 ∧
    (ready.din.len = 64 ∧ ({ ready with key := ⟨0, 0⟩ } : State).key.len ≠ 64) ∧
    (ready.din.len = 64 ∧ ready.key.len = 64 ∧ 3 < (4 : BitVec 4).toNat) ∧
    ({ ready with key := ⟨0, 255⟩ } : State).key.len ≠ 64 ∧ ({ ready with half := ⟨0, 33⟩ } : State).half.len ≠ 32 ∧
    (ready.half.len = 32 ∧ ({ ready with rkey := ⟨0, 47⟩ } : State).rkey.len ≠ 48) ∧
    (ready.half.len = 32 ∧ ready.rkey.len = 48 ∧ 3 < (15 : BitVec 4).toNat) := by decide

/-- IllegalWordsFailAsIllegalCommand: RSV not 0, OP 0, 5 and 15; and the first and the last legal OP. -/
theorem witness_illegal :
    (0x0101 : BitVec 64).extractLsb' 8 8 ≠ 0 ∧ (0x0010 : BitVec 64).extractLsb' 0 4 = 0 ∧
    5 ≤ ((0x0005 : BitVec 64).extractLsb' 0 4).toNat ∧ 5 ≤ ((0x000F : BitVec 64).extractLsb' 0 4).toNat ∧
    ¬((0x0001 : BitVec 64).extractLsb' 8 8 ≠ 0 ∨ (0x0001 : BitVec 64).extractLsb' 0 4 = 0 ∨
      5 ≤ ((0x0001 : BitVec 64).extractLsb' 0 4).toNat) ∧
    ¬((0x00F4 : BitVec 64).extractLsb' 8 8 ≠ 0 ∨ (0x00F4 : BitVec 64).extractLsb' 0 4 = 0 ∨
      5 ≤ ((0x00F4 : BitVec 64).extractLsb' 0 4).toNat) := by decide

/-- BusyCmdWriteOnlySetsOverrun and RunningCommandIgnoresOperands: a block in each running phase, with other operands. -/
theorem witness_busy :
    (running .keygen .ks 0).phase ≠ .idle ∧ (running .dec .rnd 15).phase ≠ .idle ∧
    (running .enc .ks 5).forgetOperands = ({ running .enc .ks 5 with din := ⟨9, 9⟩ } : State).forgetOperands ∧
    running .enc .ks 5 ≠ { running .enc .ks 5 with din := ⟨9, 9⟩ } := by decide +kernel

/-- CommandCycleFrame: each command answers a next state, idle or busy. -/
theorem witness_command_frame :
    (∃ t, exec (commandInstr .feval 0) ready = .next t) ∧ (∃ t, exec (commandInstr .keygen 0) ready = .next t) ∧
    (∃ t, exec (commandInstr .enc 0) (running .enc .ks 15) = .next t) := ⟨⟨_, rfl⟩, ⟨_, rfl⟩, ⟨_, rfl⟩⟩

/-- ReadOnlyAndUnmappedWritesAreIgnored: a read-only register, a file entry and an unmapped index. -/
theorem witness_ignored_write :
    Reg.status ∉ [Reg.cmd, Reg.din, Reg.key, Reg.half, Reg.rkey] ∧
    Reg.rk 0 ∉ [Reg.cmd, Reg.din, Reg.key, Reg.half, Reg.rkey] ∧
    Reg.unmapped 0x3F ∉ [Reg.cmd, Reg.din, Reg.key, Reg.half, Reg.rkey] := by decide

/-- ReadDrivesTheHeldValue: every conditional clause, idle with results, and DOUT and TRACE while a KEYGEN runs. -/
theorem witness_read_held :
    (running .keygen .ks 0).fout = some 3 ∧ (running .keygen .ks 0).dout = some 2 ∧ (running .keygen .ks 0).opl = .keygen ∧
    (running .keygen .ks 0).trace.get 15 = some 1 ∧
    ({ running .enc .ks 0 with status := 0x0002 } : State).rk.get 15 = some 0xCB3D8B0E17F5 ∧
    statusBusy ({ running .enc .ks 0 with status := 0x0002 } : State).status = false := by decide +kernel

/-- ReadsWithNoChangingEdgeAgree: registers without a value on an idle block, and FOUT while a KEYGEN runs on. -/
theorem witness_idempotent_reads :
    (∃ t, exec (.nop 0) ready = .next t ∧ unchanged .dout ready t ∧ runningWrites .dout t = false) ∧
    runningWrites .dout ready = false ∧ ready.dout = none ∧
    (∃ t, exec (.wr .din 1 1) (running .keygen .ks 0) = .next t ∧ unchanged .fout (running .keygen .ks 0) t ∧
      runningWrites .fout t = false) ∧ runningWrites .fout (running .keygen .ks 0) = false ∧
    ready.phase = .idle ∧ statusBusy ready.status = false :=
  ⟨⟨_, rfl, rfl, rfl⟩, rfl, rfl, ⟨_, rfl, rfl, rfl⟩, rfl, rfl, rfl⟩

/-- StrictStepFaultsReadsOfNoValue: a read of each kind of result register after reset, DOUT while a KEYGEN runs, and no read. -/
theorem witness_strict :
    (readCycle .fout).rd = true ∧ decodeReg (readCycle .fout).addr = .fout ∧ ready.fout = none ∧
    decodeReg (readCycle .dout).addr = .dout ∧ ready.dout = none ∧ statusBusy ready.status = false ∧
    decodeReg (readCycle (.rk 15)).addr = .rk 15 ∧ ready.rk.get 15 = none ∧
    decodeReg (readCycle (.trace 0)).addr = .trace 0 ∧ ready.trace.get 0 = none ∧
    ({ running .keygen .ks 0 with dout := none } : State).opl = .keygen ∧
    runningWrites (.rk 0) (running .enc .ks 0) = true ∧ holdsValue .key ready = true ∧ resetCycle.rd = false ∧
    (∀ p rest, ready.hostProgram ≠ .drive p :: rest) := by
  refine ⟨by decide, by decide, by decide, by decide, by decide, by decide, by decide, by decide, by decide, by decide,
    rfl, rfl, by decide, by decide, fun p rest h => by cases h⟩

/-- IdleBlockHoldsItsState. -/
theorem witness_idle : ready.phase = .idle := rfl

/-- OnlyHostWritesChangeOperands: writes that change each operand register, one of them with both strobes. -/
theorem witness_operand_changes :
    nextMeets (exec (.wr .din 1 64) ready) (fun t => t.din != ready.din) = true ∧
    nextMeets (exec (.wrRd .key 1 64) ready) (fun t => t.key != ready.key) = true ∧
    nextMeets (exec (.wr .half 1 32) ready) (fun t => t.half != ready.half) = true ∧
    nextMeets (exec (.wr .rkey 1 48) ready) (fun t => t.rkey != ready.rkey) = true := by decide

/-- KeyScheduleStepWritesOneKey: the first index, the last but one, and the last for ENC and for KEYGEN. -/
theorem witness_key_schedule_step :
    (running .enc .ks 0).phase = .ks ∧ 1 = Tables.SHIFTS.get (running .enc .ks 0).idx ∧ (running .enc .ks 0).idx.val < 15 ∧
    2 = Tables.SHIFTS.get (running .enc .ks 14).idx ∧ (running .enc .ks 14).idx.val < 15 ∧
    1 = Tables.SHIFTS.get (running .enc .ks 15).idx ∧ (running .enc .ks 15).opl ≠ .keygen ∧
    (running .keygen .ks 15).idx = 15 ∧ (running .keygen .ks 15).opl = .keygen := by decide +kernel

/-- RoundStepFollowsTheRoundTransition: ENC and DEC at the first and the last round, with the key each selects. -/
theorem witness_round_step :
    (running .enc .rnd 0).phase = .rnd ∧ (running .enc .rnd 0).rk.get (running .enc .rnd 0).idx = some 0x1B02EFFC7072 ∧
    (running .dec .rnd 0).rk.get (15 - (running .dec .rnd 0).idx) = some 0xCB3D8B0E17F5 ∧
    (running .dec .rnd 15).rk.get (15 - (running .dec .rnd 15).idx) = some 0x1B02EFFC7072 ∧
    (running .enc .rnd 0).l ^^^ canonicalF (running .enc .rnd 0).r 0x1B02EFFC7072 = 0xEF4A6544 ∧
    (running .dec .rnd 15).verl = .canonical := by decide +kernel

/-- EncRunComputesEncrypt, DecRunComputesDecrypt and KeygenRunComputesTheRoundKeys: an undisturbed block, and a host that reads
STATUS until the end; a reset in the 33rd cycle would not matter. -/
theorem witness_run :
    ready.phase = .idle ∧ ready.din.len = 64 ∧ ready.key.len = 64 ∧
    versionOfTag (2 : BitVec 4).toNat = some (.altered .v2) ∧ noResetFor 32 ready ∧ noResetFor 16 ready ∧
    noResetFor 32 { ready with hostProgram := List.replicate 32 (.drive (readCycle .status)) ++ [.drive resetCycle] } ∧
    (∃ t, exec (.enc 2) ready = .next t) ∧ (∃ t, exec (.dec 2) ready = .next t) ∧ (∃ t, exec (.keygen 2) ready = .next t) := by
  refine ⟨rfl, rfl, rfl, rfl, fun p h => by simp [ready, State.reset] at h, fun p h => by simp [ready, State.reset] at h,
    fun p h => ?_, ⟨_, rfl⟩, ⟨_, rfl⟩, ⟨_, rfl⟩⟩
  have e : p = readCycle .status := by
    have h' : HostLine.drive p ∈ List.replicate 32 (HostLine.drive (readCycle .status)) := by
      rwa [List.take_left' (by simp)] at h
    simpa using List.eq_of_mem_replicate h'
  rw [e]; rfl

/-- EveryStepKeepsTheInvariant and UnreadRegistersNeverShow: an idle block that meets the invariant, and it steps. -/
theorem witness_invariant_idle : ready.Inv ∧ ∃ t, step ready = .next t := by
  refine ⟨⟨⟨by decide, by decide, by decide, by decide, by decide⟩, ⟨by decide, by decide, by decide⟩,
    ⟨fun _ => .inr (by unfold noneHeld; decide), fun h => absurd h (by decide), fun h => absurd h (by decide),
      fun _ => .inr ⟨by unfold noneHeld; decide, by decide⟩, fun h => absurd h (by decide)⟩⟩, ⟨_, rfl⟩⟩

/-- The same in the middle of a KEYGEN, with results of earlier commands. -/
theorem witness_invariant_running : (running .keygen .ks 5).Inv := by
  have whole : allHeld (running .keygen .ks 5).rk := by unfold allHeld; decide +kernel
  refine ⟨⟨by decide, by decide, by decide, by decide, by decide⟩,
    ⟨by decide, by decide, fun _ => ⟨0, by decide, fun h => absurd rfl h⟩⟩,
    ⟨fun h => absurd h (by decide), fun _ i _ => whole i, fun h => absurd h (by decide),
      fun _ => .inl ⟨by unfold allHeld; decide, by decide⟩, fun h => absurd h (by decide)⟩⟩

/-- UnreadRegistersNeverShow: states that differ only in registers that hold no meaning, idle and while a KEYGEN runs. -/
theorem witness_unread :
    ready.forgetUnread = ({ ready with opl := .dec, verl := .altered .v1, c := 1, l := 2 } : State).forgetUnread ∧
    ready ≠ { ready with opl := .dec, verl := .altered .v1, c := 1, l := 2 } ∧
    (running .keygen .ks 5).forgetUnread = ({ running .keygen .ks 5 with l := 2, r := 3 } : State).forgetUnread := by
  decide +kernel

/-- ControlNeverDependsOnData: states that differ in data only. -/
theorem witness_control :
    (running .enc .rnd 3).controlOnly = ({ running .enc .rnd 3 with l := 1, din := ⟨7, 64⟩, dout := none } : State).controlOnly ∧
    running .enc .rnd 3 ≠ { running .enc .rnd 3 with l := 1, din := ⟨7, 64⟩, dout := none } := by decide +kernel

/-- StatusAndCmdChangeOnlyByTheirEvents: STATUS changes at an issue edge and at completion, CMD at an issue edge. -/
theorem witness_status_changes :
    nextMeets (exec (.enc 0) ready) (fun t => t.status != ready.status && t.cmd != ready.cmd) = true ∧
    nextMeets (exec (.wrRd .cmd 0x0105 16) ready) (fun t => t.status != ready.status && t.cmd != ready.cmd) = true ∧
    nextMeets (exec (.nop 0) (running .keygen .ks 15)) (fun t => t.status != (running .keygen .ks 15).status) = true := by
  decide +kernel

/-- ResultsChangeOnlyAtTheirStep: each result register changes in some step. -/
theorem witness_result_changes :
    nextMeets (exec (.nop 0) (running .enc .rnd 15)) (fun t => t.dout != some 2 && t.trace.get 15 != some 1) = true ∧
    nextMeets (exec (.nop 0) (running .enc .ks 1)) (fun t => t.rk.get 1 != (running .enc .ks 1).rk.get 1) = true ∧
    nextMeets (exec (.feval 0) ready) (fun t => t.fout != ready.fout) = true := by decide +kernel

/-- XorIsBitwiseOnEqualWidths: unequal widths, and the last position of equal ones. -/
theorem witness_xor : (⟨32, 0⟩ : BitString).width ≠ (⟨48, 0⟩ : BitString).width ∧ 1 ≤ 48 ∧ 48 ≤ 48 := by decide

/-- PermuteCopiesTheTablesPositions and PermuteChecksItsPrecondition: the last entry of E, and a call that fails. -/
theorem witness_permute : 47 < 48 ∧ Tables.E[47] = 1 ∧ callPermute ⟨31, 0⟩ Tables.E = .error .invalidLength := by
  decide +kernel

/-- PermuteChecksItsPrecondition, for a table of any length: a straight permutation, another table, and one with an entry 0. -/
theorem witness_permute_tables :
    (∀ p, 1 ≤ p → p ≤ 2 → p ∈ (#v[2, 1] : Vector Nat 2).toList) ∧ callPermute ⟨2, 0b10⟩ #v[2, 1] = .ok ⟨2, 0b01⟩ ∧
    callPermute ⟨3, 0⟩ #v[2, 1] = .error .invalidLength ∧
    ¬(∀ p, 1 ≤ p → p ≤ 2 → p ∈ (#v[3, 1] : Vector Nat 2).toList) ∧ 0 ∉ (#v[3, 1] : Vector Nat 2).toList ∧
    callPermute ⟨3, 0b100⟩ #v[3, 1] = .ok ⟨2, 0b01⟩ ∧ callPermute ⟨2, 0⟩ #v[3, 1] = .error .invalidLength ∧
    0 ∈ (#v[0, 1] : Vector Nat 2).toList := by
  refine ⟨fun p h1 h2 => ?_, by decide, by decide, fun h => absurd (h 2 (by decide) (by decide)) (by decide), by decide,
    by decide, by decide, by decide⟩
  obtain rfl | rfl : p = 1 ∨ p = 2 := by omega
  all_goals decide

/-- RotateLeftIsCyclic: the greatest amount, and the least that is refused. -/
theorem witness_rotate : 27 < 28 ∧ 28 ≤ 28 ∧ 0 < 28 := by decide

/-- ToHexRendersFourPositionsEach: a length next to a multiple of 4, and the last digit of a block. -/
theorem witness_to_hex : (⟨63, 0⟩ : BitString).width % 4 ≠ 0 ∧ 15 < 16 := by decide

/-- ExpansionCopiesNeighbours: the first position of the first group, and the last of the last. -/
theorem witness_expansion : (1 ≤ 1 ∧ 1 ≤ 8 ∧ 0 ≤ 5) ∧ (1 ≤ 8 ∧ 8 ≤ 8 ∧ 5 ≤ 5) := by decide

/-- SubstitutionUsesRowAndColumn: the first group of B9's string, 011000, is row 0, column 12. -/
theorem witness_substitution :
    (0 : Fin 4).val = 2 * (bitAt (0x6117BA866527 : RoundKey) 1).toNat + (bitAt (0x6117BA866527 : RoundKey) 6).toNat ∧
    (12 : Fin 16).val = 8 * (bitAt (0x6117BA866527 : RoundKey) 2).toNat + 4 * (bitAt (0x6117BA866527 : RoundKey) 3).toNat
      + 2 * (bitAt (0x6117BA866527 : RoundKey) 4).toNat + (bitAt (0x6117BA866527 : RoundKey) 5).toNat := by decide

/-- KeyHalvesRotateCumulatively: no round, and all sixteen. -/
theorem witness_totals :
    [0, 1, 2, 4, 6, 8, 10, 12, 14, 15, 17, 19, 21, 23, 25, 27, 28][0]? = some 0 ∧
    [0, 1, 2, 4, 6, 8, 10, 12, 14, 15, 17, 19, 21, 23, 25, 27, 28][16]? = some 28 := by decide

/-- ParityPositionsDoNotMatter: G4, every parity position inverted. -/
theorem witness_parity :
    (0x133457799BBCDFF1 : Block) &&& 0xFEFEFEFEFEFEFEFE = 0x123556789ABDDEF0 &&& 0xFEFEFEFEFEFEFEFE := by decide

/-- ConstantHalvesGiveEqualRoundKeys: two keys of G5, with halves both zero and of both kinds. -/
theorem witness_constant_halves :
    hi28 (permute (0x0101010101010101 : Block) Tables.PC1) = 0 ∧ lo28 (permute (0x0101010101010101 : Block) Tables.PC1) = 0 ∧
    hi28 (permute (0x1F1F1F1F0E0E0E0E : Block) Tables.PC1) = 0 ∧
    lo28 (permute (0x1F1F1F1F0E0E0E0E : Block) Tables.PC1) = BitVec.allOnes 28 := by decide +kernel

/-- DecryptRecoversThePlaintext and DecryptTraceMirrorsEncryptTrace: the last tag, and the ends of the mirrored range. -/
theorem witness_decrypt : 3 ≤ 3 ∧ (0 : Round).val + (14 : Round).val = 14 ∧ (14 : Round).val + (0 : Round).val = 14 := by decide

/-- HardwareFailsAsTheFunctionsDo: operands that a driver makes of strings of the right lengths, and of 65 and 320
positions. -/
theorem witness_boundary :
    ready.phase = .idle ∧ boundaryLen 65 = 65 ∧ boundaryLen 64 = 64 ∧ boundaryLen 320 = 255 ∧
    ready.din = ⟨boundaryData ⟨64, 0x0123456789ABCDEF⟩, boundaryLen 64⟩ ∧
    ready.key = ⟨boundaryData ⟨64, 0x133457799BBCDFF1⟩, boundaryLen 64⟩ ∧
    ready.half = ⟨(boundaryData ⟨32, 0xF0AAF0AA⟩).setWidth 32, boundaryLen 32⟩ ∧
    ready.rkey = ⟨(boundaryData ⟨48, 0x1B02EFFC7072⟩).setWidth 48, boundaryLen 48⟩ ∧
    ({ ready with din := ⟨7, boundaryLen 65⟩ } : State).din.len = boundaryLen 65 ∧
    ({ ready with key := ⟨7, boundaryLen 320⟩ } : State).key.len = boundaryLen 320 := by
  decide

end Sys2Proof.Machine.Tests
end

section
/-! PROOFS. The state of the block (10_state): what one cycle does to it, the invariant, which events write which
register, and what a step does not depend on. -/

namespace Sys2Proof.Machine

/-! ### What an instruction writes -/

/-- The word that an instruction writes to CMD: a command's own word, or the low half-word of a host write to CMD
(30_encoding R61; 40_command_model R80). -/
def WritesCmd (i : Instr) (word : BitVec 16) : Prop :=
  (∃ op ver, i = commandInstr op ver ∧ word = commandWord op ver) ∨
    ∃ data len, (i = .wr .cmd data len ∨ i = .wrRd .cmd data len) ∧ word = data.setWidth 16

/-- The part of a host write that falls on an operand register; a write to any other register stores nothing
(46_host_access R200; 20_memory R44). -/
def storeOperand (reg : Reg) (data : BitVec 64) (len : BitVec 8) (s : State) : State :=
  match reg with
  | .din => { s with din := ⟨data, len⟩ }
  | .key => { s with key := ⟨data, len⟩ }
  | .half => { s with half := ⟨data.setWidth 32, len⟩ }
  | .rkey => { s with rkey := ⟨data.setWidth 48, len⟩ }
  | .cmd | .status | .dout | .fout | .rk _ | .trace _ | .unmapped _ => s

/-- A host write to any register but CMD is the sequencer step and the store (40_command_model R84). -/
theorem writeReg_eq_storeOperand {reg : Reg} (h : reg ≠ .cmd) (data : BitVec 64) (len : BitVec 8) (s : State) :
    writeReg reg data len s = storeOperand reg data len (sequencerStep s) := by
  cases reg with
  | cmd => exact absurd rfl h
  | _ => rfl

/-- The frame of a store, apart from the operand registers. -/
theorem storeOperand_frame (reg : Reg) (data : BitVec 64) (len : BitVec 8) (s : State) :
    (storeOperand reg data len s).cmd = s.cmd ∧ (storeOperand reg data len s).status = s.status ∧
    (storeOperand reg data len s).dout = s.dout ∧ (storeOperand reg data len s).fout = s.fout ∧
    (storeOperand reg data len s).rk = s.rk ∧ (storeOperand reg data len s).trace = s.trace ∧
    (storeOperand reg data len s).phase = s.phase ∧ (storeOperand reg data len s).idx = s.idx ∧
    (storeOperand reg data len s).opl = s.opl ∧ (storeOperand reg data len s).verl = s.verl := by
  cases reg <;> exact ⟨rfl, rfl, rfl, rfl, rfl, rfl, rfl, rfl, rfl, rfl⟩

/-- What the edge of an instruction can do: a CMD write, or the sequencer step and a store. -/
theorem edgeState_cases (i : Instr) :
    (∃ word, WritesCmd i word ∧ ∀ s, edgeState i s = writeCmd word s) ∨
    ∃ reg data len, ∀ s, edgeState i s = storeOperand reg data len (sequencerStep s) := by
  have command : ∀ op ver, i = commandInstr op ver →
      ∃ word, WritesCmd i word ∧ ∀ s, edgeState i s = writeCmd word s :=
    fun op ver h => ⟨_, .inl ⟨op, ver, h, rfl⟩, fun s => by rw [h, edgeState_commandInstr]⟩
  have write : ∀ reg data len, (i = .wr reg data len ∨ i = .wrRd reg data len) →
      (∀ s, edgeState i s = writeReg reg data len s) →
      (∃ word, WritesCmd i word ∧ ∀ s, edgeState i s = writeCmd word s) ∨
      ∃ reg data len, ∀ s, edgeState i s = storeOperand reg data len (sequencerStep s) := by
    intro reg data len hi he
    by_cases hr : reg = .cmd
    · subst hr; exact .inl ⟨_, .inr ⟨data, len, hi, rfl⟩, he⟩
    · exact .inr ⟨reg, data, len, fun s => (he s).trans (writeReg_eq_storeOperand hr data len s)⟩
  cases i with
  | enc ver => exact .inl (command .enc ver rfl)
  | dec ver => exact .inl (command .dec ver rfl)
  | keygen ver => exact .inl (command .keygen ver rfl)
  | feval ver => exact .inl (command .feval ver rfl)
  | wr reg data len => exact write reg data len (.inl rfl) fun _ => rfl
  | wrRd reg data len => exact write reg data len (.inr rfl) fun _ => rfl
  | rd reg => exact .inr ⟨.status, 0, 0, fun _ => rfl⟩
  | nop index => exact .inr ⟨.status, 0, 0, fun _ => rfl⟩

/-! ### The state that a step answers -/

/-- The state that a cycle with instruction `i` leaves, read ports included. -/
def cycleState (i : Instr) (s : State) : State := setPorts (readOf i) s (edgeState i s)

/-- The state that a step answers: it always answers one. -/
def stepState (s : State) : State :=
  if (fetchCycle s).1.rst then resetEdge (fetchCycle s).1 (fetchCycle s).2
  else cycleState (cycleInstr (fetchCycle s).1) (fetchCycle s).2

theorem step_eq_stepState (s : State) : step s = .next (stepState s) := by
  unfold step stepState
  split_ifs
  · rfl
  · exact exec_eq _ _

/-- A reset edge is the reset state and the read ports, like every other cycle (70_reset_and_hazards R250). -/
theorem resetEdge_eq_setPorts (p : HostCycle) (s : State) :
    resetEdge p s = setPorts (if p.rd then some (decodeReg p.addr) else none) s (resetState s) := by
  unfold resetEdge
  split_ifs <;> rfl

/-! ### The invariant -/

theorem noneHeld_replicate {w : Nat} : noneHeld (Vector.replicate 16 (none : Option (BitVec w))) :=
  fun i => by simp [Vector.get]

/-- Settles O32: after reset the block is idle without an error, and no result register holds a value. -/
theorem resetStateIsGood : Obligations.ResetStateIsGood where
  statusGood := ⟨by decide, by decide, by decide, by decide, by decide⟩
  controlGood := ⟨fun _ => rfl, by decide, fun h => absurd rfl h⟩
  resultsGood := ⟨fun _ => .inr noneHeld_replicate, nofun, nofun, fun _ => .inr ⟨noneHeld_replicate, rfl⟩, nofun⟩

theorem resetState_inv (s : State) : (resetState s).Inv :=
  inv_congr (s := State.reset) rfl rfl rfl rfl rfl rfl rfl rfl rfl resetStateIsGood

/-- The invariant does not speak of the operand registers. -/
theorem storeOperand_inv (reg : Reg) (data : BitVec 64) (len : BitVec 8) {s : State} (h : s.Inv) :
    (storeOperand reg data len s).Inv := by
  obtain ⟨hcmd, hstatus, hdout, -, hrk, htrace, hphase, hidx, hopl, hverl⟩ := storeOperand_frame reg data len s
  exact inv_congr hstatus hphase hidx hopl hverl hcmd hrk htrace hdout h

/-- The invariant does not speak of the read ports. -/
theorem setPorts_inv (read : Option Reg) (before : State) {after : State} (h : after.Inv) :
    (setPorts read before after).Inv := by
  obtain ⟨data, len, e⟩ := setPorts_eq read before after
  rw [e]
  exact inv_congr (s := after) rfl rfl rfl rfl rfl rfl rfl rfl rfl h

theorem edgeState_inv (i : Instr) {s : State} (h : s.Inv) : (edgeState i s).Inv := by
  rcases edgeState_cases i with ⟨word, -, e⟩ | ⟨reg, data, len, e⟩
  · rw [e]; exact writeCmd_inv word h
  · rw [e]; exact storeOperand_inv reg data len (sequencerStep_inv h)

/-- Settles O33: a reset edge gives the reset state, and the edge of any instruction keeps the invariant. -/
theorem everyStepKeepsTheInvariant : Obligations.EveryStepKeepsTheInvariant := by
  intro s t hs ht
  obtain ⟨lines, ⟨p, -, e⟩ | ⟨i, e⟩⟩ := step_cases s
  · rw [e, resetEdge_eq_setPorts] at ht
    cases ht
    exact setPorts_inv _ _ (resetState_inv _)
  · rw [e, exec_eq] at ht
    cases ht
    have advanced : State.Inv { s with hostProgram := lines } :=
      inv_congr (s := s) rfl rfl rfl rfl rfl rfl rfl rfl rfl hs
    exact setPorts_inv _ _ (edgeState_inv i advanced)

/-! ### Which event writes STATUS and CMD -/

/-- The sequencer writes STATUS only where it completes a run (40_command_model R86). -/
theorem sequencerStep_status_ne {s : State} (h : (sequencerStep s).status ≠ s.status) :
    s.phase ≠ .idle ∧ (sequencerStep s).phase = .idle ∧ s.idx = 15 := by
  rcases sequencerStep_cases s with
    ⟨-, e⟩ | ⟨-, -, e⟩ | ⟨hp, hi, -, e⟩ | ⟨-, -, -, e⟩ | ⟨-, -, e⟩ | ⟨hp, hi, e⟩ <;> rw [e] at h ⊢
  on_goal 3 => exact ⟨by simp [hp], by simp, hi⟩
  on_goal 5 => exact ⟨by simp [hp], by simp, hi⟩
  all_goals exact absurd (by simp) h

/-- CMD holds the word after a CMD write on an idle block, and a busy block drops it (40_command_model R81, R82). -/
theorem writeCmd_cmd (word : BitVec 16) (s : State) :
    (writeCmd word s).cmd = if s.phase = .idle then word else s.cmd := by
  split_ifs with hp
  · rw [writeCmd_idle hp]; exact (issue_frame word s).1
  · rw [writeCmd_busy hp]; simp

/-- Settles O34: an instruction writes CMD, or its edge is the sequencer step, which completes a run or leaves STATUS. -/
theorem statusAndCmdChangeOnlyByTheirEvents : Obligations.StatusAndCmdChangeOnlyByTheirEvents := by
  intro s t i h
  obtain ⟨tcmd, tstatus, -, -, -, -, -, -, -, -, tphase, -⟩ := setPorts_frame (readOf i) s (edgeState i s)
  rw [← exec_eq_next_iff.mp h] at tcmd tstatus tphase
  rw [tcmd, tstatus, tphase]
  rcases edgeState_cases i with ⟨word, hw, e⟩ | ⟨reg, data, len, e⟩ <;> rw [e]
  · refine ⟨fun _ => ?_, fun hc => ?_⟩
    · rcases hw with ⟨op, ver, hi, -⟩ | ⟨data, len, hi, -⟩
      · exact .inl ⟨op, ver, hi⟩
      · exact .inr (.inl ⟨data, len, hi⟩)
    · rw [writeCmd_cmd] at hc ⊢
      split_ifs at hc ⊢ with hp
      · refine ⟨hp, ?_⟩
        rcases hw with ⟨op, ver, hi, hword⟩ | ⟨data, len, hi, hword⟩
        · exact .inl ⟨op, ver, hi, hword⟩
        · exact .inr ⟨data, len, hi, hword⟩
      · exact absurd rfl hc
  · obtain ⟨ecmd, estatus, -, -, -, -, ephase, -⟩ := storeOperand_frame reg data len (sequencerStep s)
    rw [ecmd, estatus, ephase]
    exact ⟨fun hs => .inr (.inr (sequencerStep_status_ne hs)), fun hc => absurd (sequencerStep_frame s).1 hc⟩

/-! ### Which step writes a result register -/

/-- No edge writes DOUT, RK or TRACE but through the sequencer step (10_state R29 to R31). -/
theorem edgeState_results (i : Instr) (s : State) :
    (edgeState i s).dout = (sequencerStep s).dout ∧ (edgeState i s).rk = (sequencerStep s).rk ∧
    (edgeState i s).trace = (sequencerStep s).trace := by
  rcases edgeState_cases i with ⟨word, -, e⟩ | ⟨reg, data, len, e⟩ <;> rw [e]
  · by_cases hp : s.phase = .idle
    · rw [writeCmd_idle hp, sequencerStep_idle hp]; simp [issue_frame]
    · rw [writeCmd_busy hp]; simp
  · simp [storeOperand_frame]

/-- The sequencer writes DOUT in the last round (45_feistel_engine R187). -/
theorem sequencerStep_dout_ne {s : State} (h : (sequencerStep s).dout ≠ s.dout) : s.phase = .rnd ∧ s.idx = 15 := by
  rcases sequencerStep_cases s with
    ⟨-, e⟩ | ⟨-, -, e⟩ | ⟨-, -, -, e⟩ | ⟨-, -, -, e⟩ | ⟨-, -, e⟩ | ⟨hp, hi, -⟩
  on_goal 6 => exact ⟨hp, hi⟩
  all_goals exact absurd (by simp [e]) h

/-- An entry of a register file that a write at `i` changes is entry `i`. -/
theorem eq_of_get_set_ne {α : Type} {v : Vector α 16} {i j : Round} {x : α} (h : (v.set i x).get j ≠ v.get j) :
    i = j := by
  by_contra hne
  exact h (by rw [get_set, if_neg (Ne.symm hne)])

/-- The sequencer writes RK[i] in the key-schedule step i (43_key_schedule R144). -/
theorem sequencerStep_rk_ne {s : State} {j : Round} (h : (sequencerStep s).rk.get j ≠ s.rk.get j) :
    s.phase = .ks ∧ s.idx = j := by
  rcases sequencerStep_cases s with
    ⟨-, e⟩ | ⟨hp, -, e⟩ | ⟨hp, hi, -, e⟩ | ⟨hp, hi, -, e⟩ | ⟨-, -, e⟩ | ⟨-, -, e⟩ <;>
    simp only [e, complete_fields, ksStep_fields, finalStep_fields, rndStep_fields, ne_eq, not_true] at h
  · exact ⟨hp, eq_of_get_set_ne h⟩
  · exact ⟨hp, hi.trans (eq_of_get_set_ne h)⟩
  · exact ⟨hp, hi.trans (eq_of_get_set_ne h)⟩

/-- The sequencer writes TRACE[i] in round i (45_feistel_engine R186). -/
theorem sequencerStep_trace_ne {s : State} {j : Round} (h : (sequencerStep s).trace.get j ≠ s.trace.get j) :
    s.phase = .rnd ∧ s.idx = j := by
  rcases sequencerStep_cases s with
    ⟨-, e⟩ | ⟨-, -, e⟩ | ⟨-, -, -, e⟩ | ⟨-, -, -, e⟩ | ⟨hp, -, e⟩ | ⟨hp, hi, e⟩ <;>
    simp only [e, complete_fields, ksStep_fields, finalStep_fields, rndStep_fields, ne_eq, not_true] at h
  · exact ⟨hp, eq_of_get_set_ne h⟩
  · exact ⟨hp, hi.trans (eq_of_get_set_ne h)⟩

/-- A CMD write changes FOUT only where it issues an FEVAL (44_round_function R168). -/
theorem writeCmd_fout_ne {word : BitVec 16} {s : State} (h : (writeCmd word s).fout ≠ s.fout) :
    s.phase = .idle ∧ ∃ ver, word = commandWord .feval ver := by
  by_cases hp : s.phase = .idle
  · refine ⟨hp, ?_⟩
    rw [writeCmd_idle hp] at h
    rcases issue_cases word s with ⟨e, -, he⟩ | ⟨a, ha, he⟩
    · exact absurd (by simp [he]) h
    · obtain ⟨op, ver, hword, -, hacc⟩ := validate_ok ha
      rcases acceptVersion_ok hacc with ⟨-, rfl⟩ | ⟨v, -, ⟨-, rfl⟩ | ⟨-, rfl⟩ | ⟨rfl, -⟩⟩
      on_goal 4 => exact ⟨ver, hword⟩
      all_goals exact absurd (by simp [he, startCommand, startEnc, startDec, startKeygen]) h
  · exact absurd (by rw [writeCmd_busy hp]; simp) h

/-- Command words of equal bits are of one opcode. -/
theorem commandWord_op_injective {op op' : CmdOp} {ver ver' : BitVec 4} (h : commandWord op ver = commandWord op' ver') :
    op = op' := by
  have e := decodeCommand_commandWord op ver
  rw [h, decodeCommand_commandWord] at e
  cases e; rfl

/-- An instruction that writes an FEVAL's word to CMD is an FEVAL or a host write of that word. -/
theorem WritesCmd.feval {i : Instr} {ver : BitVec 4} (h : WritesCmd i (commandWord .feval ver)) :
    (∃ ver, i = .feval ver) ∨ ∃ data len ver, decodeCommand (data.setWidth 16) = .ok (.feval, ver) ∧
      (i = .wr .cmd data len ∨ i = .wrRd .cmd data len) := by
  rcases h with ⟨op, ver', hi, hword⟩ | ⟨data, len, hi, hword⟩
  · cases commandWord_op_injective hword
    exact .inl ⟨ver', hi⟩
  · exact .inr ⟨data, len, ver, by rw [← hword, decodeCommand_commandWord], hi⟩

/-- Settles O35: the sequencer step writes DOUT, RK and TRACE, each at its own index, and the issue of an FEVAL writes
FOUT. -/
theorem resultsChangeOnlyAtTheirStep : Obligations.ResultsChangeOnlyAtTheirStep := by
  intro s t i h
  obtain ⟨-, -, -, -, -, -, tdout, tfout, trk, ttrace, -⟩ := setPorts_frame (readOf i) s (edgeState i s)
  obtain ⟨edout, erk, etrace⟩ := edgeState_results i s
  rw [exec_eq_next_iff.mp h, tdout, tfout, trk, ttrace, edout, erk, etrace]
  refine ⟨sequencerStep_dout_ne, fun _ => sequencerStep_rk_ne, fun _ => sequencerStep_trace_ne, fun hf => ?_⟩
  rcases edgeState_cases i with ⟨word, hw, e⟩ | ⟨reg, data, len, e⟩
  · obtain ⟨hp, ver, rfl⟩ := writeCmd_fout_ne (e s ▸ hf)
    exact ⟨hp, hw.feval⟩
  · exact absurd (by simp [e, storeOperand_frame]) hf

/-! ### The strict step -/

theorem fetchCycle_of_drive {s : State} {p : HostCycle} {rest : List HostLine} (h : s.hostProgram = .drive p :: rest) :
    (fetchCycle s).1 = p := by
  simp [fetchCycle, h]

/-- Without a driven line, the cycle reads no register that can be without a value (30_encoding R69; log 1). -/
theorem noValueRead_of_not_drive {s : State} (h : ∀ p rest, s.hostProgram ≠ .drive p :: rest) :
    noValueRead (fetchCycle s).1 s = none := by
  unfold fetchCycle
  cases hp : s.hostProgram with
  | nil => rfl
  | cons line rest =>
    cases line with
    | drive p => exact absurd hp (h p rest)
    | wait => rfl

/-- The check passes a cycle without a read, and a read of a register that holds a value or is being written (10_state R36;
46_host_access R202). -/
theorem noValueRead_none {p : HostCycle} {s : State}
    (h : p.rd = false ∨ holdsValue (decodeReg p.addr) s = true ∨ runningWrites (decodeReg p.addr) s = true) :
    noValueRead p s = none := by
  unfold noValueRead
  rcases h with h | h | h <;> simp [h]

/-- The check reports a read of a register that holds no value and is not being written (10_state R36). -/
theorem noValueRead_some {p : HostCycle} {s : State} {reg : Reg} (hrd : p.rd = true) (hreg : decodeReg p.addr = reg)
    (hnone : holdsValue reg s = false) (hrun : runningWrites reg s = false) : noValueRead p s = some reg := by
  simp [noValueRead, hrd, hreg, hnone, hrun]

theorem strictStep_of_some {s : State} {reg : Reg} (h : noValueRead (fetchCycle s).1 s = some reg) :
    strictStep s = .error reg := by
  simp [strictStep, h]

theorem strictStep_of_none {s : State} (h : noValueRead (fetchCycle s).1 s = none) : strictStep s = .ok (step s) := by
  simp [strictStep, h]

/-- On a block that is not busy, and while a KEYGEN runs, RK is all that a running command can be writing (46_host_access
R202; 20_memory R41). -/
theorem runningWrites_false_of_not_rk {reg : Reg} {s : State} (hreg : ∀ i, reg ≠ .rk i)
    (h : statusBusy s.status = false ∨ s.opl = .keygen) : runningWrites reg s = false := by
  cases reg with
  | rk i => exact absurd rfl (hreg i)
  | dout | trace i => rcases h with h | h <;> simp [runningWrites, h]
  | _ => simp [runningWrites]

/-- Settles O57: the check's condition, spelt out for each kind of result register. -/
theorem strictStepFaultsReadsOfNoValue : Obligations.StrictStepFaultsReadsOfNoValue := by
  refine ⟨fun s p rest hp => ?_, fun s h => strictStep_of_none (noValueRead_of_not_drive h)⟩
  have reported : ∀ reg, p.rd = true → decodeReg p.addr = reg → holdsValue reg s = false →
      runningWrites reg s = false → strictStep s = .error reg := fun reg hrd hreg hnone hrun =>
    strictStep_of_some (by rw [fetchCycle_of_drive hp]; exact noValueRead_some hrd hreg hnone hrun)
  refine ⟨fun hrd => ⟨fun hreg hv => ?_, fun hreg hv hb => ?_, fun i hreg hv hb => ?_, fun i hreg hv hb => ?_⟩,
    fun h => ?_⟩
  · exact reported _ hrd hreg (by simp [holdsValue, hv]) (by simp [runningWrites])
  · exact reported _ hrd hreg (by simp [holdsValue, hv]) (runningWrites_false_of_not_rk nofun hb)
  · exact reported _ hrd hreg (by simp [holdsValue, hv]) (by simp [runningWrites, hb])
  · exact reported _ hrd hreg (by simp [holdsValue, hv]) (runningWrites_false_of_not_rk nofun hb)
  · exact strictStep_of_none (by rw [fetchCycle_of_drive hp]; exact noValueRead_none h)

/-! ### What a step does not depend on -/

/-- Taking the host's next line commutes with forgetting what is neither STATUS nor the lines (log 1). -/
theorem fetchCycle_forget {forget : State → State} {s : State} (hprogram : (forget s).hostProgram = s.hostProgram)
    (hstatus : (forget s).status = s.status)
    (hset : ∀ lines, (forget s).withProgram lines = forget (s.withProgram lines)) :
    fetchCycle (forget s) = ((fetchCycle s).1, forget (fetchCycle s).2) := by
  have hbusy : statusBusy (forget s).status = statusBusy s.status := by rw [hstatus]
  cases h : s.hostProgram with
  | nil => simp only [fetchCycle, hprogram, h]
  | cons line rest =>
    cases line with
    | drive p => simp only [fetchCycle, hprogram, h]; exact Prod.ext rfl (hset rest)
    | wait =>
      simp only [fetchCycle, hprogram, h, hbusy]
      split_ifs
      · rfl
      · exact Prod.ext rfl (hset rest)

/-- A step does not depend on what is forgotten when no reset edge and no instruction does. -/
theorem stepState_forget {forget : State → State} {s : State}
    (fetch : fetchCycle (forget s) = ((fetchCycle s).1, forget (fetchCycle s).2))
    (reset : ∀ p, forget (resetEdge p (forget (fetchCycle s).2)) = forget (resetEdge p (fetchCycle s).2))
    (cycle : ∀ i, forget (cycleState i (forget (fetchCycle s).2)) = forget (cycleState i (fetchCycle s).2)) :
    forget (stepState (forget s)) = forget (stepState s) := by
  unfold stepState
  rw [fetch]
  dsimp only
  split_ifs
  · exact reset _
  · exact cycle _

/-- States that differ only in what is forgotten step to such states, when neither step depends on it. -/
theorem steps_agree {forget : State → State} {s s' : State} (e : forget s = forget s')
    (h : forget (stepState (forget s)) = forget (stepState s))
    (h' : forget (stepState (forget s')) = forget (stepState s')) :
    ∃ t t', step s = .next t ∧ step s' = .next t' ∧ forget t = forget t' :=
  ⟨_, _, step_eq_stepState s, step_eq_stepState s', by rw [← h, e, h']⟩

/-! ### Control state and data -/

/-- Of a store, the control state sees the length tag only (10_state R28). -/
theorem storeOperand_controlOnly (reg : Reg) (data : BitVec 64) (len : BitVec 8) (s : State) :
    (storeOperand reg data len s.controlOnly).controlOnly = (storeOperand reg data len s).controlOnly := by
  cases reg <;> rfl

theorem edgeState_controlOnly (i : Instr) (s : State) :
    (edgeState i s.controlOnly).controlOnly = (edgeState i s).controlOnly := by
  rcases edgeState_cases i with ⟨word, -, e⟩ | ⟨reg, data, len, e⟩
  · rw [e, e, writeCmd_controlOnly]
  · rw [e, e, ← storeOperand_controlOnly, sequencerStep_controlOnly, storeOperand_controlOnly]

/-- The read ports are no control state. -/
theorem setPorts_controlOnly (read : Option Reg) (before after : State) :
    (setPorts read before after).controlOnly = { after.controlOnly with freeCount := before.freeCount + 1 } := by
  cases read <;> rfl

theorem stepState_controlOnly (s : State) : (stepState s.controlOnly).controlOnly = (stepState s).controlOnly := by
  refine stepState_forget (fetchCycle_forget rfl rfl fun _ => rfl) (fun p => ?_) fun i => ?_
  · rw [resetEdge_eq_setPorts, resetEdge_eq_setPorts, setPorts_controlOnly, setPorts_controlOnly]; rfl
  · rw [cycleState, cycleState, setPorts_controlOnly, setPorts_controlOnly, edgeState_controlOnly]; rfl

/-- Settles O38: no reset edge, CMD write, store or sequencer step branches on data. -/
theorem controlNeverDependsOnData : Obligations.ControlNeverDependsOnData := fun s s' e =>
  steps_agree e (stepState_controlOnly s) (stepState_controlOnly s')

/-! ### Registers without a meaning -/

/-- What `forgetUnread` keeps: every field but OPL, VERL, C, D, L and R. -/
theorem forgetUnread_frame (s : State) :
    s.forgetUnread.cmd = s.cmd ∧ s.forgetUnread.status = s.status ∧ s.forgetUnread.din = s.din ∧
    s.forgetUnread.key = s.key ∧ s.forgetUnread.half = s.half ∧ s.forgetUnread.rkey = s.rkey ∧
    s.forgetUnread.dout = s.dout ∧ s.forgetUnread.fout = s.fout ∧ s.forgetUnread.rk = s.rk ∧
    s.forgetUnread.trace = s.trace ∧ s.forgetUnread.hostProgram = s.hostProgram ∧
    s.forgetUnread.freeCount = s.freeCount ∧ s.forgetUnread.resetCount = s.resetCount := by
  unfold State.forgetUnread
  split_ifs <;> exact ⟨rfl, rfl, rfl, rfl, rfl, rfl, rfl, rfl, rfl, rfl, rfl, rfl, rfl⟩

/-- The state with VERL, L and R, which a KEYGEN does not use, at their reset values (40_command_model R81). -/
def State.clearRounds (s : State) : State := { s with verl := .canonical, l := 0, r := 0 }

theorem forgetUnread_eq_clearRounds {s : State} (h : s.phase = .ks ∧ s.opl = .keygen) : s.forgetUnread = s.clearRounds :=
  forgetUnread_keygen h.1 h.2

/-- An update that touches no register without a meaning, nor PHASE or OPL, commutes with `forgetUnread`. -/
theorem forgetUnread_commutes {g : State → State} {s : State} (hphase : (g s).phase = s.phase) (hopl : (g s).opl = s.opl)
    (hidle : g { s with opl := .enc, verl := .canonical, c := 0, d := 0, l := 0, r := 0 } =
      { g s with opl := .enc, verl := .canonical, c := 0, d := 0, l := 0, r := 0 })
    (hkeygen : g s.clearRounds = (g s).clearRounds) : (g s).forgetUnread = g s.forgetUnread := by
  by_cases hp : s.phase = .idle
  · rw [forgetUnread_idle hp, forgetUnread_idle (hphase.trans hp), hidle]
  · by_cases hk : s.phase = .ks ∧ s.opl = .keygen
    · rw [forgetUnread_eq_clearRounds hk, forgetUnread_eq_clearRounds (by rwa [hphase, hopl]), hkeygen]
    · rw [forgetUnread_other hp hk, forgetUnread_other (by rwa [hphase]) (by rwa [hphase, hopl])]

theorem forgetUnread_withProgram (s : State) (lines : List HostLine) :
    (s.withProgram lines).forgetUnread = s.forgetUnread.withProgram lines :=
  forgetUnread_commutes (g := (State.withProgram · lines)) rfl rfl rfl rfl

theorem forgetUnread_setOverrun (s : State) : (setOverrun s).forgetUnread = setOverrun s.forgetUnread :=
  forgetUnread_commutes rfl rfl rfl rfl

theorem forgetUnread_storeOperand (reg : Reg) (data : BitVec 64) (len : BitVec 8) (s : State) :
    (storeOperand reg data len s).forgetUnread = storeOperand reg data len s.forgetUnread := by
  cases reg <;> exact forgetUnread_commutes (g := storeOperand _ data len) rfl rfl rfl rfl

theorem forgetUnread_setPorts (read : Option Reg) (before after : State) :
    (setPorts read before after).forgetUnread = setPorts read before after.forgetUnread := by
  cases read <;> exact forgetUnread_commutes (g := setPorts _ before) rfl rfl rfl rfl

/-- In a KEYGEN and after it, VERL, L and R are among what is forgotten. -/
theorem forgetUnread_clearRounds {s : State} (hp : s.phase ≠ .rnd) (ho : s.opl = .keygen) :
    s.clearRounds.forgetUnread = s.forgetUnread := by
  cases h : s.phase with
  | idle => rw [forgetUnread_idle h, forgetUnread_idle (s := s.clearRounds) h]; rfl
  | ks => rw [forgetUnread_eq_clearRounds ⟨h, ho⟩, forgetUnread_eq_clearRounds (s := s.clearRounds) ⟨h, ho⟩]; rfl
  | rnd => exact absurd h hp

theorem forgetUnread_idem (s : State) : s.forgetUnread.forgetUnread = s.forgetUnread := by
  by_cases hp : s.phase = .idle
  · exact (forgetUnread_idle ((forgetUnread_phase s).trans hp)).trans (by rw [forgetUnread_idle hp])
  · by_cases hk : s.phase = .ks ∧ s.opl = .keygen
    · obtain ⟨hks, ho⟩ := hk
      rw [forgetUnread_eq_clearRounds ⟨hks, ho⟩, forgetUnread_clearRounds (by simp [hks]) ho,
        forgetUnread_eq_clearRounds ⟨hks, ho⟩]
    · rw [forgetUnread_other hp hk, forgetUnread_other hp hk]

theorem forgetUnread_of_commutes {g : State → State} {s : State} (h : (g s).forgetUnread = g s.forgetUnread) :
    (g s.forgetUnread).forgetUnread = (g s).forgetUnread := by
  rw [← h, forgetUnread_idem]

/-- A key-schedule step of a KEYGEN does not touch VERL, L and R, and is followed by no round (43_key_schedule R144;
40_command_model R85). -/
theorem sequencerStep_clearRounds {s : State} (h : s.phase = .ks ∧ s.opl = .keygen) :
    sequencerStep s.clearRounds = (sequencerStep s).clearRounds ∧ (sequencerStep s).phase ≠ .rnd := by
  obtain ⟨hp, ho⟩ := h
  unfold sequencerStep
  rw [show s.clearRounds.phase = .ks from hp, show s.clearRounds.opl = .keygen from ho,
    show s.clearRounds.idx = s.idx from rfl, hp, ho]
  dsimp only
  rw [if_pos rfl, if_pos rfl]
  split_ifs
  · exact ⟨rfl, by simp [hp]⟩
  · exact ⟨rfl, by simp⟩

theorem sequencerStep_forgetUnread (s : State) :
    (sequencerStep s.forgetUnread).forgetUnread = (sequencerStep s).forgetUnread := by
  by_cases hp : s.phase = .idle
  · rw [sequencerStep_idle hp, sequencerStep_idle ((forgetUnread_phase s).trans hp), forgetUnread_idem]
  · by_cases hk : s.phase = .ks ∧ s.opl = .keygen
    · obtain ⟨hstep, hphase⟩ := sequencerStep_clearRounds hk
      rw [forgetUnread_eq_clearRounds hk, hstep, forgetUnread_clearRounds hphase (by simp [hk.2])]
    · rw [forgetUnread_other hp hk]

/-- Validation reads the four length tags and nothing else of the state (40_command_model R83). -/
theorem validate_forgetUnread (word : BitVec 16) (s : State) : validate word s.forgetUnread = validate word s := by
  have operands : ∀ op, firstBadOperand op s.forgetUnread = firstBadOperand op s := fun op => by
    rw [firstBadOperand_eq, firstBadOperand_eq]; cases op <;> simp only [forgetUnread_frame]
  simp only [validate, operands]

/-- A started run overwrites each register without a meaning that it reads, and a failure or an FEVAL touches none
(40_command_model R81; 60_exceptions R226; 44_round_function R168). -/
theorem issue_forgetUnread (word : BitVec 16) {s : State} (hp : s.phase = .idle) :
    (issue word s.forgetUnread).forgetUnread = (issue word s).forgetUnread := by
  have hv := validate_forgetUnread word s
  rcases issue_cases word s with ⟨e, he, h⟩ | ⟨a, ha, h⟩
  · rw [h, issue_of_error (hv.trans he)]
    exact forgetUnread_of_commutes (g := failureEntry word e) (forgetUnread_commutes rfl rfl rfl rfl)
  · rw [h, issue_of_ok (hv.trans ha)]
    cases a with
    | enc v | dec v => rw [forgetUnread_idle hp]; rfl
    | keygen =>
      rw [forgetUnread_idle hp]
      exact (forgetUnread_keygen rfl rfl).trans (forgetUnread_keygen rfl rfl).symm
    | feval v =>
      exact forgetUnread_of_commutes (g := fun t => startFeval v { t with cmd := word })
        (forgetUnread_commutes (g := fun t => startFeval v { t with cmd := word }) rfl rfl rfl rfl)

theorem writeCmd_forgetUnread (word : BitVec 16) (s : State) :
    (writeCmd word s.forgetUnread).forgetUnread = (writeCmd word s).forgetUnread := by
  by_cases hp : s.phase = .idle
  · rw [writeCmd_idle hp, writeCmd_idle ((forgetUnread_phase s).trans hp), issue_forgetUnread word hp]
  · rw [writeCmd_busy hp, writeCmd_busy (by rwa [forgetUnread_phase]), forgetUnread_setOverrun, sequencerStep_forgetUnread,
      forgetUnread_setOverrun]

theorem edgeState_forgetUnread (i : Instr) (s : State) :
    (edgeState i s.forgetUnread).forgetUnread = (edgeState i s).forgetUnread := by
  rcases edgeState_cases i with ⟨word, -, e⟩ | ⟨reg, data, len, e⟩
  · rw [e, e, writeCmd_forgetUnread]
  · rw [e, e, forgetUnread_storeOperand, sequencerStep_forgetUnread, forgetUnread_storeOperand]

/-- BUSY = 0 on an idle block. It is what a read needs of the invariant: OPL tells it what a busy block is writing
(46_host_access R202), and OPL has no meaning while idle. -/
def IdleNotBusy (s : State) : Prop := s.phase = .idle → statusBusy s.status = false

theorem State.Inv.idleNotBusy {s : State} (h : s.Inv) : IdleNotBusy s := fun hp =>
  Bool.eq_false_iff.mpr fun hb => h.statusGood.busy_iff_running.mp hb hp

theorem idleNotBusy_forgetUnread (s : State) : IdleNotBusy s.forgetUnread ↔ IdleNotBusy s := by
  simp only [IdleNotBusy, forgetUnread_phase, forgetUnread_frame]

theorem runningWrites_forgetUnread (reg : Reg) {s : State} (h : IdleNotBusy s) :
    runningWrites reg s.forgetUnread = runningWrites reg s := by
  by_cases hp : s.phase = .idle
  · simp [runningWrites, forgetUnread_frame, h hp]
  · by_cases hk : s.phase = .ks ∧ s.opl = .keygen
    · rw [forgetUnread_eq_clearRounds hk]; rfl
    · rw [forgetUnread_other hp hk]

/-- No read shows a register without a meaning (10_state R22, R33). -/
theorem read_forgetUnread (reg : Reg) {s : State} (h : IdleNotBusy s) :
    readData reg s.forgetUnread = readData reg s ∧ readLen reg s.forgetUnread = readLen reg s := by
  cases reg <;> simp [readData, readLen, resultValue, runningWrites_forgetUnread _ h, forgetUnread_frame]

theorem setPorts_of_forgetUnread (read : Option Reg) {before : State} (h : IdleNotBusy before) (after : State) :
    setPorts read before.forgetUnread after = setPorts read before after := by
  cases read with
  | none => simp [setPorts, floatPorts, forgetUnread_frame]
  | some reg => simp [setPorts, drivePorts, read_forgetUnread reg h, forgetUnread_frame]

/-- A cycle with its read ports, from what its edge leaves. -/
theorem setPorts_agree {read : Option Reg} {before after after' : State} (h : IdleNotBusy before)
    (e : after'.forgetUnread = after.forgetUnread) :
    (setPorts read before.forgetUnread after').forgetUnread = (setPorts read before after).forgetUnread := by
  rw [forgetUnread_setPorts, e, setPorts_of_forgetUnread read h, forgetUnread_setPorts]

/-- Taking the host's next line changes neither the phase nor STATUS. -/
theorem fetchCycle_idleNotBusy {s : State} (h : IdleNotBusy s) : IdleNotBusy (fetchCycle s).2 := by
  unfold fetchCycle
  split
  · exact h
  · exact h
  · split_ifs <;> exact h

theorem stepState_forgetUnread {s : State} (h : IdleNotBusy s) :
    (stepState s.forgetUnread).forgetUnread = (stepState s).forgetUnread := by
  have fetch : fetchCycle s.forgetUnread = ((fetchCycle s).1, (fetchCycle s).2.forgetUnread) :=
    fetchCycle_forget (by simp [forgetUnread_frame]) (by simp [forgetUnread_frame])
      fun lines => (forgetUnread_withProgram s lines).symm
  refine stepState_forget fetch (fun p => ?_) fun i => setPorts_agree (fetchCycle_idleNotBusy h) (edgeState_forgetUnread i _)
  rw [resetEdge_eq_setPorts, resetEdge_eq_setPorts]
  exact setPorts_agree (fetchCycle_idleNotBusy h) (by simp [resetState_eq, forgetUnread_frame])

/-- Settles O36: on a block that is not busy while idle, a step does not depend on the registers without a meaning. -/
theorem unreadRegistersNeverShow : Obligations.UnreadRegistersNeverShow := by
  intro s s' hs e
  have h : IdleNotBusy s := hs.idleNotBusy
  have h' : IdleNotBusy s' := by rwa [← idleNotBusy_forgetUnread, ← e, idleNotBusy_forgetUnread]
  exact steps_agree e (stepState_forgetUnread h) (stepState_forgetUnread h')

end Sys2Proof.Machine
end

section
/-! PROOFS. The register space (20_memory): which instruction writes an operand register, what a command's cycle leaves
alone, which writes are ignored, that reads of an unchanged register agree, and that a running command does not read the
operand registers. -/

namespace Sys2Proof.Machine

/-! ### Ignored writes -/

/-- Settles O21: for a register that is neither CMD nor an operand register, a write is the sequencer step alone. -/
theorem readOnlyAndUnmappedWritesAreIgnored : Obligations.ReadOnlyAndUnmappedWritesAreIgnored := by
  intro s data len reg h
  cases reg with
  | cmd | din | key | half | rkey => exact absurd h (by simp)
  | _ => rfl

/-! ### Who writes the operand registers -/

/-- The two states hold the same operand registers. -/
structure SameOperands (t s : State) : Prop where
  din : t.din = s.din
  key : t.key = s.key
  half : t.half = s.half
  rkey : t.rkey = s.rkey

theorem sequencerStep_sameOperands (s : State) : SameOperands (sequencerStep s) s := by
  constructor <;> simp

theorem writeCmd_sameOperands (word : BitVec 16) (s : State) : SameOperands (writeCmd word s) s := by
  constructor <;> simp [writeCmd_operands]

/-- An edge leaves the operand registers alone, or it is the edge of a host write. -/
theorem edgeState_sameOperands_or_writeReg (i : Instr) (s : State) :
    SameOperands (edgeState i s) s ∨
    ∃ reg data len, (i = .wr reg data len ∨ i = .wrRd reg data len) ∧ edgeState i s = writeReg reg data len s := by
  cases i with
  | enc ver | dec ver | keygen ver | feval ver => exact .inl (writeCmd_sameOperands _ s)
  | rd reg | nop index => exact .inl (sequencerStep_sameOperands s)
  | wr reg data len => exact .inr ⟨reg, data, len, .inl rfl, rfl⟩
  | wrRd reg data len => exact .inr ⟨reg, data, len, .inr rfl, rfl⟩

/-- An operand register that a host write changes is the register it names (46_host_access R200). -/
theorem writeReg_operand_ne (reg : Reg) (data : BitVec 64) (len : BitVec 8) (s : State) :
    ((writeReg reg data len s).din ≠ s.din → reg = .din) ∧ ((writeReg reg data len s).key ≠ s.key → reg = .key) ∧
    ((writeReg reg data len s).half ≠ s.half → reg = .half) ∧
    ((writeReg reg data len s).rkey ≠ s.rkey → reg = .rkey) := by
  cases reg with
  | cmd => simp [writeReg, writeCmd_operands]
  | _ => simp [writeReg]

/-- Settles O26: an edge that changes an operand register is a host write, and a host write changes only the register it
names. -/
theorem onlyHostWritesChangeOperands : Obligations.OnlyHostWritesChangeOperands := by
  intro s t i h
  obtain ⟨-, -, tdin, tkey, thalf, trkey, -⟩ := setPorts_frame (readOf i) s (edgeState i s)
  rw [exec_eq_next_iff.mp h, tdin, tkey, thalf, trkey]
  rcases edgeState_sameOperands_or_writeReg i s with same | ⟨reg, data, len, hi, e⟩
  · exact ⟨absurd same.din, absurd same.key, absurd same.half, absurd same.rkey⟩
  · obtain ⟨hdin, hkey, hhalf, hrkey⟩ := writeReg_operand_ne reg data len s
    rw [e]
    exact ⟨fun hne => ⟨data, len, hdin hne ▸ hi⟩, fun hne => ⟨data, len, hkey hne ▸ hi⟩,
      fun hne => ⟨data, len, hhalf hne ▸ hi⟩, fun hne => ⟨data, len, hrkey hne ▸ hi⟩⟩

/-! ### The frame of a command's cycle -/

/-- A CMD write takes nothing from the host's coming cycles (log 1). -/
theorem writeCmd_hostProgram (word : BitVec 16) (s : State) : (writeCmd word s).hostProgram = s.hostProgram := by
  by_cases hp : s.phase = .idle
  · rw [writeCmd_idle hp]; simp [issue_frame]
  · rw [writeCmd_busy hp]; simp

/-- The issue of a command's word fails, or starts what the version check accepts for its opcode (40_command_model R83). -/
theorem issue_commandWord_cases (op : CmdOp) (ver : BitVec 4) (s : State) :
    (∃ e, issue (commandWord op ver) s = failureEntry (commandWord op ver) e s) ∨
    ∃ a, acceptVersion op ver = .ok a ∧
      issue (commandWord op ver) s = startCommand a { s with cmd := commandWord op ver } := by
  rcases issue_cases (commandWord op ver) s with ⟨e, -, h⟩ | ⟨a, ha, h⟩
  · exact .inl ⟨e, h⟩
  · refine .inr ⟨a, ?_, h⟩
    rw [validate_commandWord] at ha
    split at ha
    · cases ha
    · exact ha

/-- The issue of an FEVAL leaves the sequencer and the datapath registers alone (44_round_function R168; 60_exceptions
R226). -/
theorem issue_feval_frame (ver : BitVec 4) (s : State) :
    (issue (commandWord .feval ver) s).phase = s.phase ∧ (issue (commandWord .feval ver) s).idx = s.idx ∧
    (issue (commandWord .feval ver) s).opl = s.opl ∧ (issue (commandWord .feval ver) s).verl = s.verl ∧
    (issue (commandWord .feval ver) s).c = s.c ∧ (issue (commandWord .feval ver) s).d = s.d ∧
    (issue (commandWord .feval ver) s).l = s.l ∧ (issue (commandWord .feval ver) s).r = s.r := by
  rcases issue_commandWord_cases .feval ver s with ⟨e, h⟩ | ⟨a, ha, h⟩ <;> rw [h]
  · simp
  · obtain ⟨hop, -⟩ | ⟨v, -, ⟨hop, -⟩ | ⟨hop, -⟩ | ⟨-, rfl⟩⟩ := acceptVersion_ok ha
    on_goal 4 => simp [startCommand]
    all_goals cases hop

/-- The issue of a KEYGEN leaves VERL, L and R alone (43_key_schedule R145; 60_exceptions R226). -/
theorem issue_keygen_frame (ver : BitVec 4) (s : State) :
    (issue (commandWord .keygen ver) s).verl = s.verl ∧ (issue (commandWord .keygen ver) s).l = s.l ∧
    (issue (commandWord .keygen ver) s).r = s.r := by
  rcases issue_commandWord_cases .keygen ver s with ⟨e, h⟩ | ⟨a, ha, h⟩ <;> rw [h]
  · simp
  · cases ha
    simp [startCommand, startKeygen]

/-- Only the issue of an FEVAL writes FOUT (20_memory R41). -/
theorem writeCmd_commandWord_fout {op : CmdOp} (h : op ≠ .feval) (ver : BitVec 4) (s : State) :
    (writeCmd (commandWord op ver) s).fout = s.fout := by
  by_contra hne
  obtain ⟨-, ver', hword⟩ := writeCmd_fout_ne hne
  exact h (commandWord_op_injective hword)

/-- Settles O19: the frame of a CMD write, and on an idle block the frame of the issue edge. -/
theorem commandCycleFrame : Obligations.CommandCycleFrame := by
  intro s t op ver h
  obtain rfl : t = floatPorts s (writeCmd (commandWord op ver) s) := by
    rw [exec_eq_next_iff.mp h, edgeState_commandInstr, readOf_commandInstr]; rfl
  simp only [floatPorts_fields]
  obtain ⟨hdin, hkey, hhalf, hrkey⟩ := writeCmd_operands (commandWord op ver) s
  refine ⟨hdin, hkey, hhalf, hrkey, writeCmd_hostProgram _ s, fun hop => writeCmd_commandWord_fout hop ver s,
    fun hp => ?_, fun hp hop => ?_, fun hp hop => ?_⟩ <;> rw [writeCmd_idle hp]
  · obtain ⟨-, -, -, -, -, hdout, hrk, htrace, -⟩ := issue_frame (commandWord op ver) s
    exact ⟨hdout, hrk, htrace⟩
  · subst hop
    obtain ⟨hphase, rest⟩ := issue_feval_frame ver s
    exact ⟨hphase.trans hp, rest⟩
  · subst hop
    exact issue_keygen_frame ver s

/-! ### Repeated reads -/

theorem exec_resetCount {i : Instr} {s t : State} (h : exec i s = .next t) : t.resetCount = s.resetCount := by
  rw [exec_eq_next_iff.mp h, ← edgeState_resetCount i s]
  simp only [setPorts_frame]

/-- Two reads of one register, with an instruction's edge between them that does not change it, agree (20_memory R47). -/
theorem reads_agree {s t : State} {i : Instr} {reg : Reg} (h : exec i s = .next t) (hu : unchanged reg s t)
    (hs : runningWrites reg s = false) (ht : runningWrites reg t = false) :
    ∃ u v, exec (.rd reg) s = .next u ∧ exec (.rd reg) t = .next v ∧
      v.hostRdata = u.hostRdata ∧ v.hostRlen = u.hostRlen :=
  ⟨_, _, rfl, rfl, read_of_unchanged hu (exec_resetCount h) hs ht⟩

/-- Settles O56: a read changes no register on an idle block, so two in a row are a case of the first part. -/
theorem readsWithNoChangingEdgeAgree : Obligations.ReadsWithNoChangingEdgeAgree := by
  refine ⟨fun s t i reg => reads_agree, fun s reg hp hb => ?_⟩
  have hread : exec (.rd reg) s = .next (drivePorts reg s s) := by
    rw [exec_eq]; simp [edgeState, readOf, setPorts, hp]
  have hu : unchanged reg s (drivePorts reg s s) := by
    cases reg <;> simp [unchanged]
  have quiet : ∀ t : State, t.status = s.status → runningWrites reg t = false := fun t ht => by
    simp [runningWrites, ht, hb]
  obtain ⟨u, v, hs, ht, agree⟩ := reads_agree hread hu (quiet _ rfl) (quiet _ rfl)
  cases hread.symm.trans hs
  exact ⟨_, v, hread, ht, agree⟩

/-! ### A running command and the operand registers -/

/-- A store into the operand registers is among what is forgotten. -/
theorem storeOperand_forgetOperands (reg : Reg) (data : BitVec 64) (len : BitVec 8) (s : State) :
    (storeOperand reg data len s).forgetOperands = s.forgetOperands := by
  cases reg <;> rfl

/-- While a command runs, every edge is its own step, perhaps with OVR set: neither reads an operand register
(20_memory R53). -/
theorem edgeState_forgetOperands (i : Instr) {s : State} (hp : s.phase ≠ .idle) :
    (edgeState i s.forgetOperands).forgetOperands = (edgeState i s).forgetOperands := by
  rcases edgeState_cases i with ⟨word, -, e⟩ | ⟨reg, data, len, e⟩
  · rw [e, e, writeCmd_busy hp, writeCmd_busy (s := s.forgetOperands) hp, sequencerStep_forgetOperands]; rfl
  · rw [e, e, storeOperand_forgetOperands, storeOperand_forgetOperands, sequencerStep_forgetOperands]; rfl

/-- The read ports are among what is forgotten. -/
theorem setPorts_forgetOperands (read : Option Reg) (before after : State) :
    (setPorts read before after).forgetOperands = { after.forgetOperands with freeCount := before.freeCount + 1 } := by
  cases read <;> rfl

/-- Taking the host's next line does not change the phase. -/
theorem fetchCycle_phase (s : State) : (fetchCycle s).2.phase = s.phase := by
  unfold fetchCycle
  split
  · rfl
  · rfl
  · split_ifs <;> rfl

theorem stepState_forgetOperands {s : State} (hp : s.phase ≠ .idle) :
    (stepState s.forgetOperands).forgetOperands = (stepState s).forgetOperands := by
  have hbusy : (fetchCycle s).2.phase ≠ .idle := by rwa [fetchCycle_phase]
  refine stepState_forget (fetchCycle_forget rfl rfl fun _ => rfl) (fun p => ?_) fun i => ?_
  · rw [resetEdge_eq_setPorts, resetEdge_eq_setPorts, setPorts_forgetOperands, setPorts_forgetOperands]; rfl
  · rw [cycleState, cycleState, setPorts_forgetOperands, setPorts_forgetOperands, edgeState_forgetOperands i hbusy]; rfl

/-- Settles O37: on a busy block a step does not depend on the operand registers. -/
theorem runningCommandIgnoresOperands : Obligations.RunningCommandIgnoresOperands := by
  intro s s' hp e
  have hphase : s.forgetOperands.phase = s'.forgetOperands.phase := by rw [e]
  have hp' : s'.phase ≠ .idle := fun h => hp (hphase.trans h)
  exact steps_agree e (stepState_forgetOperands hp) (stepState_forgetOperands hp')

end Sys2Proof.Machine
end

section
/-! PROOFS. The encoding (30_encoding): the round trip through the decoder, the legal command words, the access
descriptors, and the instruction that the ports of a cycle carry. -/

namespace Sys2Proof.Machine

/-! ### Command words -/

theorem decodeCommand_eq_ok_iff {w : BitVec 16} {op : CmdOp} {ver : BitVec 4} :
    decodeCommand w = .ok (op, ver) ↔ w = commandWord op ver := by
  constructor
  · exact eq_commandWord_of_decodeCommand
  · rintro rfl
    exact decodeCommand_commandWord op ver

/-- Settles O2: the command word `0x00V<OP>` decodes to its fields, and a word that decodes is its three fields. -/
theorem commandWordsAreExactlyTheLegalOnes : Obligations.CommandWordsAreExactlyTheLegalOnes :=
  fun _ _ _ => decodeCommand_eq_ok_iff

theorem decode_commandWord (op : CmdOp) (ver : BitVec 4) :
    decode (.cmd16 (commandWord op ver)) = .ok (commandInstr op ver) := by
  simp [decode]

/-- The decoder reads an instruction from a 16-bit word exactly when the word is a command's (30_encoding R66). -/
theorem decode_cmd16_eq_ok_iff {w : BitVec 16} {i : Instr} :
    decode (.cmd16 w) = .ok i ↔ ∃ op ver, decodeCommand w = .ok (op, ver) ∧ i = commandInstr op ver := by
  constructor
  · intro h
    cases hw : decodeCommand w with
    | error r => simp [decode, hw] at h
    | ok command => exact ⟨command.1, command.2, rfl, by simpa [decode, hw] using h.symm⟩
  · rintro ⟨op, ver, hw, rfl⟩
    rw [decodeCommand_eq_ok_iff.mp hw, decode_commandWord]

/-! ### The round trip -/

/-- Settles O1: a command's word decodes to the command, and a descriptor to its two strobes and its index, which names the
register it was made of. -/
theorem decodeOfEncodeIsTheInstruction : Obligations.DecodeOfEncodeIsTheInstruction := by
  intro i h
  cases i with
  | enc ver => exact decode_commandWord .enc ver
  | dec ver => exact decode_commandWord .dec ver
  | keygen ver => exact decode_commandWord .keygen ver
  | feval ver => exact decode_commandWord .feval ver
  | wr reg data len => simp [encode, decode, decodeReg_encodeReg (reg := reg) h]
  | rd reg => simp [encode, decode, decodeReg_encodeReg (reg := reg) h]
  | wrRd reg data len => simp [encode, decode, decodeReg_encodeReg (reg := reg) h]
  | nop index => simp [encode, decode]

/-- Settles O4: the legal words and the descriptors are encodings, so they decode by the round trip; the three illegal words
are decoded here. -/
theorem wordsOfTheSpecDecode : Obligations.WordsOfTheSpecDecode := by
  have encoded := decodeOfEncodeIsTheInstruction
  exact ⟨encoded (.enc 0) rfl, encoded (.enc 3) rfl, encoded (.dec 2) rfl, encoded (.keygen 0) rfl,
    encoded (.keygen 15) rfl, encoded (.feval 1) rfl, encoded (.enc 4) rfl, by decide, by decide, by decide,
    encoded (.wr .key 0x133457799BBCDFF1 64) rfl, encoded (.rd (.rk 15)) rfl, encoded (.rd (.trace 0)) rfl,
    encoded (.wrRd .key 0x2222222222222222 64) rfl, encoded (.rd (.unmapped 0x08)) rfl, encoded (.nop 0) rfl⟩

/-! ### Access descriptors -/

/-- Settles O3: the two strobes select the access, and the index its register. -/
theorem accessDescriptorNamesTheAccess : Obligations.AccessDescriptorNamesTheAccess := fun index data len =>
  ⟨congrArg Except.ok (decodeAccess_wr index data len), congrArg Except.ok (decodeAccess_rd index data len),
    congrArg Except.ok (decodeAccess_wrRd index data len), congrArg Except.ok (decodeAccess_nop index data len)⟩

/-- A descriptor is its two strobes and its index (30_encoding R67). -/
theorem accessDescriptor_of_fields (d : BitVec 8) :
    accessDescriptor (d.getLsbD 7) (d.getLsbD 6) (d.extractLsb' 0 6) = d := by
  revert d; decide

/-- Only `host_wr` alone at CMD's index is a write to CMD, and its data is `host_wdata` (30_encoding R67). -/
theorem ports_of_decodeAccess_eq_wr_cmd {wr rd : Bool} {index : BitVec 6} {wdata data : BitVec 64} {wlen len : BitVec 8}
    (h : decodeAccess (accessDescriptor wr rd index) wdata wlen = .wr .cmd data len) :
    (wr = true ∧ rd = false ∧ index = 0x00) ∧ wdata = data := by
  cases wr <;> cases rd
  case true.false =>
    rw [decodeAccess_wr] at h
    obtain ⟨hreg, hdata, -⟩ := Instr.wr.inj h
    have hindex : index = encodeReg .cmd := by rw [← hreg, encodeReg_decodeReg]
    exact ⟨⟨rfl, rfl, hindex⟩, hdata⟩
  all_goals simp at h

/-! ### The instruction of a cycle -/

theorem asCommand_wr_cmd {data : BitVec 64} {op : CmdOp} {ver : BitVec 4}
    (h : decodeCommand (data.setWidth 16) = .ok (op, ver)) (len : BitVec 8) :
    asCommand (.wr .cmd data len) = commandInstr op ver := by
  simp [asCommand, h]

/-- Every instruction but a write of a legal command word to CMD is itself (log 14). -/
theorem asCommand_eq_self {i : Instr}
    (h : ∀ data len op ver, i = .wr .cmd data len → decodeCommand (data.setWidth 16) ≠ .ok (op, ver)) :
    asCommand i = i := by
  cases i with
  | wr reg data len =>
    cases reg with
    | cmd =>
      cases hw : decodeCommand (data.setWidth 16) with
      | error r => simp [asCommand, hw]
      | ok command => exact absurd hw (h data len command.1 command.2 rfl)
    | _ => rfl
  | _ => rfl

/-- A cycle that writes a command's word to CMD carries the command (30_encoding R61). -/
theorem cycleInstr_of_command {p : HostCycle} {i : Instr} (hi : decode (.cmd16 (p.wdata.setWidth 16)) = .ok i)
    (hwr : p.wr = true) (hrd : p.rd = false) (haddr : p.addr = 0x00) : cycleInstr p = i := by
  obtain ⟨op, ver, hw, rfl⟩ := decode_cmd16_eq_ok_iff.mp hi
  rw [cycleInstr, hwr, hrd, haddr, decodeAccess_wr]
  exact asCommand_wr_cmd hw p.wlen

/-- Any other cycle carries the access of its descriptor (30_encoding R67). -/
theorem cycleInstr_of_access {p : HostCycle}
    (h : ∀ j, decode (.cmd16 (p.wdata.setWidth 16)) = .ok j → ¬(p.wr = true ∧ p.rd = false ∧ p.addr = 0x00)) :
    cycleInstr p = decodeAccess (accessDescriptor p.wr p.rd p.addr) p.wdata p.wlen := by
  refine asCommand_eq_self fun data len op ver haccess hw => ?_
  obtain ⟨hports, rfl⟩ := ports_of_decodeAccess_eq_wr_cmd haccess
  exact h _ (decode_cmd16_eq_ok_iff.mpr ⟨op, ver, hw, rfl⟩) hports

/-- Settles O6: the ports of a CMD write whose word decodes carry the command, all others the access of the descriptor. -/
theorem cycleCarriesTheDecodedInstruction : Obligations.CycleCarriesTheDecodedInstruction := by
  refine ⟨fun w i p hi hwr hrd haddr hw => ?_, fun p i hi h => ?_⟩
  · subst hw
    exact cycleInstr_of_command hi hwr hrd haddr
  · exact (cycleInstr_of_access h).trans (Except.ok.inj hi)

/-! ### Table words -/

theorem decodeTableWord_16_eq_some {w : Nat} {i : Instr} :
    decodeTableWord 16 w = some i ↔ decode (.cmd16 (BitVec.ofNat 16 w)) = .ok i := by
  rw [decodeTableWord]
  cases decode (.cmd16 (BitVec.ofNat 16 w)) <;> simp [Except.toOption]

theorem decodeTableWord_8 (w : Nat) : decodeTableWord 8 w = some (decodeAccess (BitVec.ofNat 8 w) 0 0) := rfl

/-- The ports that carry a 16-bit table word carry the instruction the decoder reads from it (log 14). -/
theorem cycleInstr_tableWordCycle_16 {w : Nat} {i : Instr} (h : decodeTableWord 16 w = some i) :
    cycleInstr (tableWordCycle 16 w) = i := by
  have hword : ((BitVec.ofNat 16 w).setWidth 64).setWidth 16 = BitVec.ofNat 16 w := by
    rw [BitVec.setWidth_setWidth_of_le _ (by decide), BitVec.setWidth_eq]
  refine cycleInstr_of_command ?_ rfl rfl rfl
  exact (congrArg (fun word => decode (.cmd16 word)) hword).trans (decodeTableWord_16_eq_some.mp h)

/-- The ports that carry an 8-bit table word carry its access: on the data ports they hold zero, which is no command's word
(log 14). -/
theorem cycleInstr_tableWordCycle_8 {w : Nat} {i : Instr} (h : decodeTableWord 8 w = some i) :
    cycleInstr (tableWordCycle 8 w) = i := by
  rw [decodeTableWord_8, Option.some.injEq] at h
  have hzero : ∀ j, decode (.cmd16 ((0#64).setWidth 16)) ≠ .ok j := fun j => nofun
  calc cycleInstr (tableWordCycle 8 w)
      = decodeAccess (accessDescriptor ((BitVec.ofNat 8 w).getLsbD 7) ((BitVec.ofNat 8 w).getLsbD 6)
          ((BitVec.ofNat 8 w).extractLsb' 0 6)) 0 0 := cycleInstr_of_access fun j hj => absurd hj (hzero j)
    _ = i := by rw [accessDescriptor_of_fields, h]

/-- The step on a placed table word runs the instruction of its ports, with the host's lines as before it was placed. -/
theorem step_withFetchWord (s : State) (nbits w : Nat) :
    step (s.withFetchWord nbits w) = exec (cycleInstr (tableWordCycle nbits w)) s := by
  have hrst : (tableWordCycle nbits w).rst = false := by
    unfold tableWordCycle
    split_ifs <;> rfl
  exact step_of_drive rfl hrst

/-- Settles O7: the placed word is the next cycle, and its ports carry the instruction that the decoder reads from it. -/
theorem placedTableWordRunsNext : Obligations.PlacedTableWordRunsNext := by
  refine fun s w i => ⟨fun h => ?_, fun h => ?_⟩
  · rw [step_withFetchWord, cycleInstr_tableWordCycle_16 h]
  · rw [step_withFetchWord, cycleInstr_tableWordCycle_8 h]

/-- Settles O8: both cycles are the CMD write of the command's word, with no read. -/
theorem cmdWriteRunsItsCommand : Obligations.CmdWriteRunsItsCommand := by
  intro s data len op ver h
  have hword : edgeState (.wr .cmd data len) s = writeCmd (commandWord op ver) s :=
    congrArg (writeCmd · s) (decodeCommand_eq_ok_iff.mp h)
  rw [exec_eq, exec_eq, hword, edgeState_commandInstr, readOf_commandInstr]
  rfl

end Sys2Proof.Machine
end

section
/-! PROOFS. The command model (40_command_model): the issue edge of each command, the order of its failures, the CMD write
that a running command drops, the steps of the sequencer, and whole runs, which compute the functional layer. -/

namespace Sys2Proof.Machine

/-! ### The host's next line -/

/-- Settles O5: each kind of next line has its own rule of the step. -/
theorem stepRunsTheDecodedInstruction : Obligations.StepRunsTheDecodedInstruction := fun _ =>
  ⟨fun _ _ => step_of_drive, step_of_empty, fun _ => step_of_wait_busy, fun _ => step_of_wait_done⟩

/-! ### The issue edge -/

/-- A command whose operands are ready and whose version is accepted starts at its issue edge (40_command_model R81). -/
theorem exec_command_accepted {op : CmdOp} {ver : BitVec 4} {a : Accepted} {s : State} (hp : s.phase = .idle)
    (hready : firstBadOperand op s = none) (haccept : acceptVersion op ver = .ok a) :
    exec (commandInstr op ver) s = .next (floatPorts s (startCommand a { s with cmd := commandWord op ver })) := by
  have hvalid : validate (commandWord op ver) s = .ok a := by rw [validate_commandWord, hready]; exact haccept
  rw [exec_commandInstr_idle op ver hp, issue_of_ok hvalid]

theorem exec_command_failed {op : CmdOp} {ver : BitVec 4} {e : Failure} {s : State} (hp : s.phase = .idle)
    (hfail : validate (commandWord op ver) s = .error e) :
    exec (commandInstr op ver) s = .next (floatPorts s (failureEntry (commandWord op ver) e s)) := by
  rw [exec_commandInstr_idle op ver hp, issue_of_error hfail]

/-- A command reports its first operand with a wrong LEN (60_exceptions R224, R227). -/
theorem exec_command_badOperand {op : CmdOp} {o : OperandName} {s : State} (ver : BitVec 4) (hp : s.phase = .idle)
    (hbad : firstBadOperand op s = some o) :
    exec (commandInstr op ver) s =
      .next (floatPorts s (failureEntry (commandWord op ver) ⟨.invalidLength, o.errArg⟩ s)) :=
  exec_command_failed hp (by rw [validate_commandWord, hbad])

/-- A command that uses VER reports one above 3, once its operands are ready (60_exceptions R223, R227). -/
theorem exec_command_badVersion {op : CmdOp} {ver : BitVec 4} {s : State} (hp : s.phase = .idle)
    (hready : firstBadOperand op s = none) (hop : op ≠ .keygen) (hver : 3 < ver.toNat) :
    exec (commandInstr op ver) s = .next (floatPorts s (failureEntry (commandWord op ver) ⟨.unknownVersion, .ver⟩ s)) := by
  have hreject : acceptVersion op ver = .error ⟨.unknownVersion, .ver⟩ := by
    cases op with
    | keygen => exact absurd rfl hop
    | enc | dec | feval => simp [acceptVersion, withVersion, versionOfTag_none hver]
  exact exec_command_failed hp (by rw [validate_commandWord, hready]; exact hreject)

/-- ENC and DEC check DIN and then KEY (40_command_model R83). -/
theorem firstBadOperand_cipher {op : CmdOp} (hop : op ∈ [CmdOp.enc, CmdOp.dec]) (s : State) :
    firstBadOperand op s = if s.din.len = 64 then if s.key.len = 64 then none else some .key else some .din := by
  rw [firstBadOperand_eq]
  cases op with
  | enc | dec => rfl
  | keygen | feval => exact absurd hop (by decide)

theorem firstBadOperand_cipher_ready {op : CmdOp} {s : State} (hop : op ∈ [CmdOp.enc, CmdOp.dec])
    (hdin : s.din.len = 64) (hkey : s.key.len = 64) : firstBadOperand op s = none := by
  rw [firstBadOperand_cipher hop, if_pos hdin, if_pos hkey]

theorem firstBadOperand_keygen (s : State) :
    firstBadOperand .keygen s = if s.key.len = 64 then none else some .key :=
  firstBadOperand_eq .keygen s

/-- FEVAL checks HALF and then RKEY (40_command_model R83). -/
theorem firstBadOperand_feval (s : State) :
    firstBadOperand .feval s = if s.half.len = 32 then if s.rkey.len = 48 then none else some .rkey else some .half :=
  firstBadOperand_eq .feval s

/-- Settles O11: the accepted ENC loads key and block and begins its run. -/
theorem encStartsItsRun : Obligations.EncStartsItsRun := fun _ _ _ hp hdin hkey hver =>
  exec_command_accepted (op := .enc) hp (firstBadOperand_cipher_ready (by decide) hdin hkey) (acceptVersion_some hver)

/-- Settles O12: the accepted DEC loads key and block and begins its run. -/
theorem decStartsItsRun : Obligations.DecStartsItsRun := fun _ _ _ hp hdin hkey hver =>
  exec_command_accepted (op := .dec) hp (firstBadOperand_cipher_ready (by decide) hdin hkey) (acceptVersion_some hver)

/-- Settles O13: KEYGEN is accepted whatever VER holds, loads the key and begins its run. -/
theorem keygenStartsItsRun : Obligations.KeygenStartsItsRun := fun _ _ hp hkey =>
  exec_command_accepted (op := .keygen) hp ((firstBadOperand_keygen _).trans (if_pos hkey)) rfl

/-- Settles O16: the failing operand is the first in order that is not ready, and VER is looked at when all are. -/
theorem failuresAreReportedInOrder : Obligations.FailuresAreReportedInOrder := by
  intro s ver hp
  refine ⟨fun op hop => ⟨fun hdin => ?_, fun hdin hkey => ?_, fun hdin hkey hver => ?_⟩, fun hkey => ?_, fun hhalf => ?_,
    fun hhalf hrkey => ?_, fun hhalf hrkey hver => ?_⟩
  · exact exec_command_badOperand (o := .din) ver hp (by rw [firstBadOperand_cipher hop, if_neg hdin])
  · exact exec_command_badOperand (o := .key) ver hp (by rw [firstBadOperand_cipher hop, if_pos hdin, if_neg hkey])
  · have hversion : op ≠ .keygen := by rintro rfl; simp at hop
    exact exec_command_badVersion hp (firstBadOperand_cipher_ready hop hdin hkey) hversion hver
  · exact exec_command_badOperand (o := .key) ver hp (by rw [firstBadOperand_keygen, if_neg hkey])
  · exact exec_command_badOperand (o := .half) ver hp (by rw [firstBadOperand_feval, if_neg hhalf])
  · exact exec_command_badOperand (o := .rkey) ver hp (by rw [firstBadOperand_feval, if_pos hhalf, if_neg hrkey])
  · exact exec_command_badVersion hp (by rw [firstBadOperand_feval, if_pos hhalf, if_pos hrkey]) (by decide) hver

/-! ### A CMD write while a command runs -/

theorem exec_nop (index : BitVec 6) (s : State) : exec (.nop index) s = .next (floatPorts s (sequencerStep s)) := by
  rw [exec_eq]; rfl

/-- Settles O18: the edge is the sequencer step with OVR set, for every way of writing CMD. -/
theorem busyCmdWriteOnlySetsOverrun : Obligations.BusyCmdWriteOnlySetsOverrun := by
  intro s data len hp
  have dropped : ∀ word, writeCmd word s = setOverrun (sequencerStep s) := writeCmd_busy hp
  have write : edgeState (.wr .cmd data len) s = setOverrun (sequencerStep s) := dropped _
  have writeRead : edgeState (.wrRd .cmd data len) s = setOverrun (sequencerStep s) := dropped _
  refine ⟨_, exec_nop 0 s, by simp, ?_, ⟨drivePorts .cmd s (sequencerStep s), rfl, ?_⟩, fun op ver => ?_⟩
  · rw [exec_eq, write]; rfl
  · rw [exec_eq, writeRead]; rfl
  · rw [exec_eq, edgeState_commandInstr, readOf_commandInstr, dropped]; rfl

/-! ### The steps of the sequencer -/

theorem sequencerStep_ks {s : State} (hp : s.phase = .ks) (hi : s.idx.val < 15) :
    sequencerStep s = { ksStep s.idx s with idx := s.idx + 1 } := by
  simp [sequencerStep, hp, hi]

theorem sequencerStep_ks_last {s : State} (hp : s.phase = .ks) (hi : s.idx.val = 15) (ho : s.opl ≠ .keygen) :
    sequencerStep s = { ksStep s.idx s with phase := .rnd, idx := 0 } := by
  simp [sequencerStep, hp, hi, ho]

theorem sequencerStep_ks_last_keygen {s : State} (hp : s.phase = .ks) (hi : s.idx.val = 15) (ho : s.opl = .keygen) :
    sequencerStep s = complete (ksStep s.idx s) := by
  simp [sequencerStep, hp, hi, ho]

theorem sequencerStep_rnd {s : State} (hp : s.phase = .rnd) (hi : s.idx.val < 15) :
    sequencerStep s = { rndStep s.idx s with idx := s.idx + 1 } := by
  simp [sequencerStep, hp, hi]

theorem sequencerStep_rnd_last {s : State} (hp : s.phase = .rnd) (hi : s.idx.val = 15) :
    sequencerStep s = complete (finalStep (rndStep s.idx s)) := by
  simp [sequencerStep, hp, hi]

/-- Settles O27: the three ways the key-schedule step ends, at the rotation amount that the schedule lists. -/
theorem keyScheduleStepWritesOneKey : Obligations.KeyScheduleStepWritesOneKey := by
  intro s index n hp hn
  obtain rfl : n = shiftAmount s.idx := by rw [hn, shiftAmount_eq]
  rw [exec_nop]
  refine ⟨fun hi => ?_, fun hi ho => ?_, fun hi ho => ?_⟩
  · rw [sequencerStep_ks hp hi]; rfl
  · rw [sequencerStep_ks_last hp (congrArg Fin.val hi) ho]; rfl
  · rw [sequencerStep_ks_last_keygen hp (congrArg Fin.val hi) ho]; rfl

/-- R' of a round whose key register holds k (45_feistel_engine R186). -/
theorem nextR_of_roundKeyRegister {i : Round} {s : State} {k : RoundKey} (h : roundKeyRegister i s = some k) :
    nextR i s = s.l ^^^ roundF s.verl s.r k := by
  simp [nextR, selectedRoundKey, h]

/-- Settles O28: the key register that OPL selects holds k, so the two ways the round step ends write R' under k. -/
theorem roundStepFollowsTheRoundTransition : Obligations.RoundStepFollowsTheRoundTransition := by
  intro s index k r' hp hk hr
  have hkey : roundKeyRegister s.idx s = some k := by
    rcases hk with ⟨ho, hk⟩ | ⟨ho, hk⟩
    · rw [roundKeyRegister, ho]; exact hk
    · have hrev : s.idx.rev = 15 - s.idx := by
        generalize s.idx = i
        revert i; decide
      rw [roundKeyRegister, ho]; simpa only [hrev] using hk
  obtain rfl : r' = nextR s.idx s := by
    rw [nextR_of_roundKeyRegister hkey, hr]
    cases s.verl <;> rfl
  rw [exec_nop]
  refine ⟨fun hi => ?_, fun hi => ?_⟩
  · rw [sequencerStep_rnd hp hi]; rfl
  · rw [sequencerStep_rnd_last hp (congrArg Fin.val hi)]; rfl

/-! ### The runs: what holds of the running block -/

/-- What a run that began in `start` keeps until it completes: BUSY without an error, CMD, OPL and FOUT. -/
structure RunFrame (start t : State) : Prop where
  busy : statusBusy t.status = true
  err : statusErr t.status = 0
  arg : statusErrArg t.status = 0
  cmd : t.cmd = start.cmd
  opl : t.opl = start.opl
  fout : t.fout = start.fout

/-- The key schedule of a run that began in `start`, before its step n: C and D are C_n and D_n of the key, the keys before n
are written, and what the rounds use and write is as it was (43_key_schedule R144). -/
structure KeyScheduleAt (start : State) (master : Block) (n : Nat) (t : State) : Prop extends RunFrame start t where
  phase : t.phase = .ks
  idx : t.idx.val = n
  halves : (t.c, t.d) = keyHalves master n
  keys : ∀ i : Round, i.val < n → t.rk.get i = some (roundKey master i.val)
  dout : t.dout = start.dout
  trace : t.trace = start.trace
  verl : t.verl = start.verl
  l : t.l = start.l
  r : t.r = start.r

/-- The rounds of a run that began in `start`, before round n: L and R are L_n and R_n of the block under the keys in the order
of OPL, and the trace is written before n (45_feistel_engine R186). -/
structure RoundsAt (start : State) (decrypting : Bool) (v : CipherVersion) (b master : Block) (n : Nat) (t : State) :
    Prop extends RunFrame start t where
  phase : t.phase = .rnd
  idx : t.idx.val = n
  verl : t.verl = v
  rk : t.rk = (roundKeys master).map some
  halves : (t.l, t.r) = feistelHalves (roundF v) b (keysInOrder decrypting master) n
  trace : ∀ i : Round, i.val < n →
    t.trace.get i = some ((cipherTrace Config.fVariant decrypting v b master).get i)

/-- A run that began in `start` has completed without an error, with the key set in RK; CMD and FOUT are as they were
(40_command_model R86, R87). -/
structure CompletedAt (start : State) (master : Block) (t : State) : Prop where
  phase : t.phase = .idle
  busy : statusBusy t.status = false
  done : statusDone t.status = true
  err : statusErr t.status = 0
  arg : statusErrArg t.status = 0
  rk : t.rk = (roundKeys master).map some
  fout : t.fout = start.fout
  cmd : t.cmd = start.cmd

/-- OPL of a run of ENC or DEC. -/
def cipherOpl (decrypting : Bool) : RunOp := if decrypting then .dec else .enc

/-- Where a run of ENC or DEC is, n edges after its issue edge. -/
inductive CipherRunAt (start : State) (decrypting : Bool) (v : CipherVersion) (b master : Block) : Nat → State → Prop
  | schedule {n : Nat} {t : State} (h : KeyScheduleAt start master n t) : CipherRunAt start decrypting v b master n t
  | rounds {n : Nat} {t : State} (h : RoundsAt start decrypting v b master n t) :
    CipherRunAt start decrypting v b master (16 + n) t
  | completed {t : State} (h : CompletedAt start master t)
    (hdout : t.dout = some (cipher Config.fVariant decrypting v b master))
    (htrace : t.trace = (cipherTrace Config.fVariant decrypting v b master).map some) :
    CipherRunAt start decrypting v b master 32 t

/-- Where a run of KEYGEN is, n edges after its issue edge. -/
inductive KeygenRunAt (start : State) (master : Block) : Nat → State → Prop
  | schedule {n : Nat} {t : State} (h : KeyScheduleAt start master n t) : KeygenRunAt start master n t
  | completed {t : State} (h : CompletedAt start master t) (hdout : t.dout = start.dout) (htrace : t.trace = start.trace) :
    KeygenRunAt start master 16 t

/-! ### What the host does to a run -/

section
variable {start t t' : State} {master b : Block} {decrypting : Bool} {v : CipherVersion} {n : Nat}

theorem RunFrame.congr (same : SameRun t' t) (h : RunFrame start t) : RunFrame start t' where
  busy := same.busy.trans h.busy
  err := same.err.trans h.err
  arg := same.arg.trans h.arg
  cmd := same.cmd.trans h.cmd
  opl := same.opl.trans h.opl
  fout := same.fout.trans h.fout

theorem KeyScheduleAt.congr (same : SameRun t' t) (h : KeyScheduleAt start master n t) :
    KeyScheduleAt start master n t' where
  toRunFrame := h.toRunFrame.congr same
  phase := same.phase.trans h.phase
  idx := same.idx ▸ h.idx
  halves := by rw [same.c, same.d, h.halves]
  keys := same.rk ▸ h.keys
  dout := same.dout.trans h.dout
  trace := same.trace.trans h.trace
  verl := same.verl.trans h.verl
  l := same.l.trans h.l
  r := same.r.trans h.r

theorem RoundsAt.congr (same : SameRun t' t) (h : RoundsAt start decrypting v b master n t) :
    RoundsAt start decrypting v b master n t' where
  toRunFrame := h.toRunFrame.congr same
  phase := same.phase.trans h.phase
  idx := same.idx ▸ h.idx
  verl := same.verl.trans h.verl
  rk := same.rk.trans h.rk
  halves := by rw [same.l, same.r, h.halves]
  trace := same.trace ▸ h.trace

theorem CompletedAt.congr (same : SameRun t' t) (h : CompletedAt start master t) : CompletedAt start master t' where
  phase := same.phase.trans h.phase
  busy := same.busy.trans h.busy
  done := same.done.trans h.done
  err := same.err.trans h.err
  arg := same.arg.trans h.arg
  rk := same.rk.trans h.rk
  fout := same.fout.trans h.fout
  cmd := same.cmd.trans h.cmd

theorem CipherRunAt.congr (same : SameRun t' t) (h : CipherRunAt start decrypting v b master n t) :
    CipherRunAt start decrypting v b master n t' := by
  cases h with
  | schedule h => exact .schedule (h.congr same)
  | rounds h => exact .rounds (h.congr same)
  | completed h hdout htrace => exact .completed (h.congr same) (same.dout.trans hdout) (same.trace.trans htrace)

theorem KeygenRunAt.congr (same : SameRun t' t) (h : KeygenRunAt start master n t) : KeygenRunAt start master n t' := by
  cases h with
  | schedule h => exact .schedule (h.congr same)
  | completed h hdout htrace => exact .completed (h.congr same) (same.dout.trans hdout) (same.trace.trans htrace)

end

/-- A run is followed edge by edge: a predicate that the sequencer's step carries from one edge to the next, and that the host
cannot disturb, holds along a run without a reset while the block is busy (40_command_model R82, R84). -/
theorem runSteps_of_invariant {P : Nat → State → Prop} {s : State} {last : Nat}
    (hcongr : ∀ {n t t'}, SameRun t' t → P n t → P n t')
    (hstep : ∀ n t, n < last → P n t → t.phase ≠ .idle ∧ P (n + 1) (sequencerStep t))
    (hstart : P 0 s) (hreset : noResetFor last s) :
    ∀ n, n ≤ last → ∃ t, runSteps n s = .next t ∧ noResetFor (last - n) t ∧ P n t := by
  intro n
  induction n with
  | zero => exact fun _ => ⟨s, rfl, hreset, hstart⟩
  | succ n ih =>
    intro hn
    obtain ⟨t, hrun, hquiet, ht⟩ := ih (by omega)
    obtain ⟨hbusy, hnext⟩ := hstep n t (by omega) ht
    rw [show last - n = last - (n + 1) + 1 by omega] at hquiet
    obtain ⟨t', hs, hquiet', same⟩ := busy_step hbusy hquiet
    exact ⟨t', (runSteps_succ n s t hrun).trans hs, hquiet', hcongr same hnext⟩

/-! ### The steps of a run -/

theorem idx_add_one {i : Round} {n : Nat} (hi : i.val = n) (hn : n < 15) : (i + 1).val = n + 1 := by
  rw [Fin.val_add_one_of_lt (Fin.lt_def.mpr (by rw [hi]; exact hn)), hi]

/-- Writing entry n of a file whose entries before n are right makes those before n + 1 right. -/
theorem get_set_below {α : Type} {file : Vector α 16} {f : Round → α} {n : Nat} {i : Round} {x : α} (hi : i.val = n)
    (hbelow : ∀ j : Round, j.val < n → file.get j = f j) (hx : x = f i) :
    ∀ j : Round, j.val < n + 1 → (file.set i x).get j = f j := by
  intro j hj
  rw [get_set]
  split_ifs with h
  · rw [hx, h]
  · have hne : j.val ≠ i.val := fun e => h (Fin.ext e)
    exact hbelow j (by omega)

theorem get_map_some {α : Type} (values : Vector α 16) (i : Round) : (values.map some).get i = some (values.get i) :=
  Vector.getElem_map some i.isLt

/-- A file is known by its sixteen entries. -/
theorem eq_map_some_of_get {w : Nat} {file : Vector (Option (BitVec w)) 16} {values : Vector (BitVec w) 16}
    (h : ∀ i : Round, file.get i = some (values.get i)) : file = values.map some := by
  refine Vector.ext fun i hi => ?_
  rw [Vector.getElem_map]
  exact h ⟨i, hi⟩

section
variable {start t t' : State} {master b : Block} {decrypting : Bool} {v : CipherVersion} {n : Nat}

/-- The halves that a key-schedule step leaves are the next ones of the key (43_key_schedule R144). -/
theorem KeyScheduleAt.ksStep_halves (h : KeyScheduleAt start master n t) :
    ((ksStep t.idx t).c, (ksStep t.idx t).d) = keyHalves master (n + 1) := by
  rw [keyHalves_succ, ← h.halves, ← h.idx]; rfl

/-- The key-schedule step n writes K_n, after the keys before it (43_key_schedule R144). -/
theorem KeyScheduleAt.ksStep_keys (h : KeyScheduleAt start master n t) :
    ∀ i : Round, i.val < n + 1 → (ksStep t.idx t).rk.get i = some (roundKey master i.val) := by
  refine get_set_below h.idx h.keys ?_
  rw [roundKey, h.idx, ← h.ksStep_halves, ← h.idx]; rfl

/-- The last key-schedule step completes the key set. -/
theorem KeyScheduleAt.ksStep_rk (h : KeyScheduleAt start master 15 t) :
    (ksStep t.idx t).rk = (roundKeys master).map some :=
  eq_map_some_of_get fun i => by rw [roundKeys_get]; exact h.ksStep_keys i i.isLt

theorem KeyScheduleAt.next (h : KeyScheduleAt start master n t) (hn : n < 15) :
    KeyScheduleAt start master (n + 1) (sequencerStep t) := by
  rw [sequencerStep_ks h.phase (h.idx.trans_lt hn)]
  exact ⟨⟨h.busy, h.err, h.arg, h.cmd, h.opl, h.fout⟩, h.phase, idx_add_one h.idx hn, h.ksStep_halves, h.ksStep_keys,
    h.dout, h.trace, h.verl, h.l, h.r⟩

/-- `complete()` ends a run without an error, once the key set is in RK (40_command_model R86). -/
theorem RunFrame.complete (h : RunFrame start t) (hrk : t.rk = (roundKeys master).map some) :
    CompletedAt start master (complete t) := by
  constructor <;> simp [h.err, h.arg, h.cmd, h.fout, hrk]

/-- Of ENC and DEC, whose halves were loaded at the issue edge, round 0 follows the last key-schedule step. -/
theorem KeyScheduleAt.enterRounds (h : KeyScheduleAt start master 15 t) (hopl : start.opl ≠ .keygen)
    (hhalves : (start.l, start.r) = feistelHalves (roundF start.verl) b (keysInOrder decrypting master) 0) :
    RoundsAt start decrypting start.verl b master 0 (sequencerStep t) := by
  rw [sequencerStep_ks_last h.phase h.idx (h.opl ▸ hopl)]
  refine ⟨⟨h.busy, h.err, h.arg, h.cmd, h.opl, h.fout⟩, rfl, rfl, h.verl, h.ksStep_rk, ?_, fun i hi => absurd hi (by omega)⟩
  rw [← hhalves, ← h.l, ← h.r]; rfl

/-- Of KEYGEN, the last key-schedule step completes the run. -/
theorem KeyScheduleAt.completeKeygen (h : KeyScheduleAt start master 15 t) (hopl : start.opl = .keygen) :
    KeygenRunAt start master 16 (sequencerStep t) := by
  rw [sequencerStep_ks_last_keygen h.phase h.idx (h.opl.trans hopl)]
  have frame : RunFrame start (ksStep t.idx t) := ⟨h.busy, h.err, h.arg, h.cmd, h.opl, h.fout⟩
  exact .completed (frame.complete h.ksStep_rk) h.dout h.trace

/-- The functional trace, under the round function of the block (45_feistel_engine R181). -/
theorem cipherTrace_get (i : Round) :
    (cipherTrace Config.fVariant decrypting v b master).get i =
      (feistelHalves (roundF v) b (keysInOrder decrypting master) (i.val + 1)).1 ++
        (feistelHalves (roundF v) b (keysInOrder decrypting master) (i.val + 1)).2 :=
  feistelTrace_get (roundF v) b (keysInOrder decrypting master) i

/-- The functional result, under the round function of the block (45_feistel_engine R182). -/
theorem cipher_eq_terminal :
    cipher Config.fVariant decrypting v b master =
      terminal (feistelHalves (roundF v) b (keysInOrder decrypting master) 16).1
        (feistelHalves (roundF v) b (keysInOrder decrypting master) 16).2 := rfl

/-- The RK register that round i reads holds key i in the order of the run (45_feistel_engine R183, R184, R186). -/
theorem roundKeyRegister_of_keys (hopl : t.opl = cipherOpl decrypting) (hrk : t.rk = (roundKeys master).map some)
    (i : Round) : roundKeyRegister i t = some ((keysInOrder decrypting master).get i) := by
  cases decrypting with
  | false => rw [roundKeyRegister, hopl, hrk]; exact get_map_some _ i
  | true => rw [roundKeyRegister, hopl, hrk, keysInOrder, if_pos rfl, reverseKeys_get]; exact get_map_some _ i.rev

/-- The halves that a round leaves are the next ones of the functional engine (45_feistel_engine R181, R186). -/
theorem RoundsAt.rndStep_halves (h : RoundsAt start decrypting v b master n t) (hopl : start.opl = cipherOpl decrypting) :
    ((rndStep t.idx t).l, (rndStep t.idx t).r) =
      feistelHalves (roundF v) b (keysInOrder decrypting master) (n + 1) := by
  have hkey := roundKeyRegister_of_keys (h.opl.trans hopl) h.rk t.idx
  rw [get_eq_getD _ _ 0, h.idx] at hkey
  rw [feistelHalves_succ, ← h.halves, ← h.verl]
  exact congrArg (Prod.mk t.r) (nextR_of_roundKeyRegister hkey)

/-- Round n writes entry n of the trace, after those before it (45_feistel_engine R181, R186). -/
theorem RoundsAt.rndStep_trace (h : RoundsAt start decrypting v b master n t) (hopl : start.opl = cipherOpl decrypting) :
    ∀ i : Round, i.val < n + 1 →
      (rndStep t.idx t).trace.get i = some ((cipherTrace Config.fVariant decrypting v b master).get i) := by
  have entry : (cipherTrace Config.fVariant decrypting v b master).get t.idx = t.r ++ nextR t.idx t := by
    rw [cipherTrace_get, h.idx, ← h.rndStep_halves hopl]; rfl
  exact get_set_below h.idx h.trace (congrArg some entry.symm)

theorem RoundsAt.next (h : RoundsAt start decrypting v b master n t) (hopl : start.opl = cipherOpl decrypting)
    (hn : n < 15) : RoundsAt start decrypting v b master (n + 1) (sequencerStep t) := by
  rw [sequencerStep_rnd h.phase (h.idx.trans_lt hn)]
  exact ⟨⟨h.busy, h.err, h.arg, h.cmd, h.opl, h.fout⟩, h.phase, idx_add_one h.idx hn, h.verl, h.rk, h.rndStep_halves hopl,
    h.rndStep_trace hopl⟩

/-- Round 15 completes the run with the functional result in DOUT and TRACE (45_feistel_engine R182, R187). -/
theorem RoundsAt.complete (h : RoundsAt start decrypting v b master 15 t) (hopl : start.opl = cipherOpl decrypting) :
    CipherRunAt start decrypting v b master 32 (sequencerStep t) := by
  rw [sequencerStep_rnd_last h.phase h.idx]
  have frame : RunFrame start (finalStep (rndStep t.idx t)) := ⟨h.busy, h.err, h.arg, h.cmd, h.opl, h.fout⟩
  refine .completed (frame.complete h.rk) ?_ (eq_map_some_of_get fun i => h.rndStep_trace hopl i i.isLt)
  rw [cipher_eq_terminal, ← h.rndStep_halves hopl]; rfl

/-- One edge of a run of ENC or DEC (40_command_model R85). -/
theorem CipherRunAt.next (h : CipherRunAt start decrypting start.verl b master n t) (hn : n < 32)
    (hopl : start.opl = cipherOpl decrypting)
    (hhalves : (start.l, start.r) = feistelHalves (roundF start.verl) b (keysInOrder decrypting master) 0) :
    t.phase ≠ .idle ∧ CipherRunAt start decrypting start.verl b master (n + 1) (sequencerStep t) := by
  cases h with
  | schedule h =>
    refine ⟨by simp [h.phase], ?_⟩
    obtain hlt | rfl : n < 15 ∨ n = 15 := by have := h.idx; omega
    · exact .schedule (h.next hlt)
    · have hcipher : start.opl ≠ .keygen := by rw [hopl]; cases decrypting <;> decide
      exact .rounds (h.enterRounds hcipher hhalves)
  | @rounds n t h =>
    refine ⟨by simp [h.phase], ?_⟩
    obtain hlt | rfl : n < 15 ∨ n = 15 := by omega
    · exact .rounds (h.next hopl hlt)
    · exact h.complete hopl
  | completed => exact absurd hn (by decide)

/-- One edge of a run of KEYGEN (40_command_model R85). -/
theorem KeygenRunAt.next (h : KeygenRunAt start master n t) (hn : n < 16) (hopl : start.opl = .keygen) :
    t.phase ≠ .idle ∧ KeygenRunAt start master (n + 1) (sequencerStep t) := by
  cases h with
  | schedule h =>
    refine ⟨by simp [h.phase], ?_⟩
    obtain hlt | rfl : n < 15 ∨ n = 15 := by omega
    · exact .schedule (h.next hlt)
    · exact h.completeKeygen hopl
  | completed => exact absurd hn (by decide)

end

/-! ### Whole runs -/

theorem startedStatus_fields :
    statusBusy startedStatus = true ∧ statusErr startedStatus = 0 ∧ statusErrArg startedStatus = 0 := by decide

/-- The issue edge of a run whose key is loaded is before key-schedule step 0 (40_command_model R81). -/
theorem keyScheduleAt_beginRun (op : RunOp) (v : CipherVersion) {master : Block} (before : State) {loaded : State}
    (h : (loaded.c, loaded.d) = keyHalves master 0) :
    KeyScheduleAt (floatPorts before (beginRun op v loaded)) master 0 (floatPorts before (beginRun op v loaded)) :=
  have ⟨hbusy, herr, harg⟩ := startedStatus_fields
  ⟨⟨hbusy, herr, harg, rfl, rfl, rfl⟩, rfl, rfl, h, fun i hi => absurd hi (by omega), rfl, rfl, rfl, rfl, rfl⟩

section
variable {start t : State} {master b : Block} {decrypting : Bool} {v : CipherVersion} {n : Nat}

/-- Before its last edge a run of ENC or DEC is busy, with 16 key-schedule steps and then 16 rounds in order. -/
theorem CipherRunAt.busy (h : CipherRunAt start decrypting v b master n t) (hn : n < 32) :
    statusBusy t.status = true ∧ t.phase = (if n < 16 then .ks else .rnd) ∧ t.idx.val = n % 16 := by
  cases h with
  | schedule h =>
    have hlt : n < 16 := h.idx ▸ t.idx.isLt
    exact ⟨h.busy, by rw [if_pos hlt, h.phase], by rw [h.idx, Nat.mod_eq_of_lt hlt]⟩
  | @rounds n t h => exact ⟨h.busy, by rw [if_neg (by omega), h.phase], by rw [h.idx]; omega⟩
  | completed => exact absurd hn (by decide)

/-- After its last edge a run of ENC or DEC has completed with the functional result. -/
theorem CipherRunAt.last (h : CipherRunAt start decrypting v b master n t) (hn : n = 32) :
    CompletedAt start master t ∧ t.dout = some (cipher Config.fVariant decrypting v b master) ∧
      t.trace = (cipherTrace Config.fVariant decrypting v b master).map some := by
  cases h with
  | schedule h => exact absurd h.idx (by omega)
  | rounds h => exact absurd h.idx (by omega)
  | completed h hdout htrace => exact ⟨h, hdout, htrace⟩

theorem KeygenRunAt.busy (h : KeygenRunAt start master n t) (hn : n < 16) :
    statusBusy t.status = true ∧ t.phase = .ks ∧ t.idx.val = n := by
  cases h with
  | schedule h => exact ⟨h.busy, h.phase, h.idx⟩
  | completed => exact absurd hn (by decide)

theorem KeygenRunAt.last (h : KeygenRunAt start master n t) (hn : n = 16) :
    CompletedAt start master t ∧ t.dout = start.dout ∧ t.trace = start.trace := by
  cases h with
  | schedule h => exact absurd h.idx (by omega)
  | completed h hdout htrace => exact ⟨h, hdout, htrace⟩

end

/-- A run of ENC or DEC that was issued in `s` and begins in `start` computes the functional result in 32 edges
(40_command_model R87, R89; 45_feistel_engine R188, R189). -/
def ComputesCipher (decrypting : Bool) (v : CipherVersion) (s start : State) : Prop :=
  (∀ n, n < 32 → ∃ t, runSteps n start = .next t ∧ statusBusy t.status = true ∧
    t.phase = (if n < 16 then .ks else .rnd) ∧ t.idx.val = n % 16) ∧
  ∃ t, runSteps 32 start = .next t ∧ t.phase = .idle ∧ statusBusy t.status = false ∧ statusDone t.status = true ∧
    statusErr t.status = 0 ∧ statusErrArg t.status = 0 ∧
    t.dout = some (cipher Config.fVariant decrypting v s.din.data s.key.data) ∧
    t.trace = (cipherTrace Config.fVariant decrypting v s.din.data s.key.data).map some ∧
    t.rk = (roundKeys s.key.data).map some ∧ t.fout = s.fout ∧ t.cmd = start.cmd

/-- The state that the issue edge of an ENC or DEC leaves (40_command_model R81). -/
def cipherStart (decrypting : Bool) (word : BitVec 16) (v : CipherVersion) (s : State) : State :=
  floatPorts s (beginRun (cipherOpl decrypting) v (blockLoad (keyLoad { s with cmd := word })))

/-- The run is followed from its issue edge to its last edge, ENC and DEC alike. -/
theorem cipherStart_computesCipher (decrypting : Bool) (word : BitVec 16) (v : CipherVersion) {s : State}
    (hreset : noResetFor 32 s) : ComputesCipher decrypting v s (cipherStart decrypting word v s) := by
  have hrun := runSteps_of_invariant
    (P := CipherRunAt (cipherStart decrypting word v s) decrypting v s.din.data s.key.data)
    CipherRunAt.congr (fun n t hn h => h.next hn rfl rfl) (.schedule (keyScheduleAt_beginRun _ v s rfl)) hreset
  refine ⟨fun n hn => ?_, ?_⟩
  · obtain ⟨t, ht, -, h⟩ := hrun n hn.le
    exact ⟨t, ht, h.busy hn⟩
  · obtain ⟨t, ht, -, h⟩ := hrun 32 le_rfl
    obtain ⟨done, hdout, htrace⟩ := h.last rfl
    exact ⟨t, ht, done.phase, done.busy, done.done, done.err, done.arg, hdout, htrace, done.rk, done.fout, done.cmd⟩

/-- Settles O29: a started ENC is the start of a run with the keys forward. -/
theorem encRunComputesEncrypt : Obligations.EncRunComputesEncrypt := by
  intro s s1 ver v hp hdin hkey hver hreset h
  rw [encStartsItsRun s ver v hp hdin hkey hver] at h
  cases h
  exact cipherStart_computesCipher false (commandWord .enc ver) v hreset

/-- Settles O30: a started DEC is the start of a run with the keys reversed. -/
theorem decRunComputesDecrypt : Obligations.DecRunComputesDecrypt := by
  intro s s1 ver v hp hdin hkey hver hreset h
  rw [decStartsItsRun s ver v hp hdin hkey hver] at h
  cases h
  exact cipherStart_computesCipher true (commandWord .dec ver) v hreset

/-- Settles O31: a started KEYGEN is followed from its issue edge to its last key-schedule step. -/
theorem keygenRunComputesTheRoundKeys : Obligations.KeygenRunComputesTheRoundKeys := by
  intro s s1 ver hp hkey hreset h
  rw [keygenStartsItsRun s ver hp hkey] at h
  cases h
  have hrun := runSteps_of_invariant (P := KeygenRunAt _ s.key.data) KeygenRunAt.congr
    (fun n t hn h => h.next hn rfl)
    (.schedule (keyScheduleAt_beginRun .keygen s.verl s (loaded := keyLoad { s with cmd := commandWord .keygen ver }) rfl))
    hreset
  refine ⟨fun n hn => ?_, ?_⟩
  · obtain ⟨t, ht, -, h⟩ := hrun n hn.le
    exact ⟨t, ht, h.busy hn⟩
  · obtain ⟨t, ht, -, h⟩ := hrun 16 le_rfl
    obtain ⟨done, hdout, htrace⟩ := h.last rfl
    exact ⟨t, ht, done.phase, done.busy, done.done, done.err, done.arg, done.rk, hdout, htrace, done.fout, done.cmd⟩

end Sys2Proof.Machine
end

section
/-! PROOFS. The primitives (41_primitives): `xor`, `permute`, `rotate_left` and `to_hex`, position by position, with the calls
that fail. -/

namespace Sys2Proof.Machine

/-! ### `xor` -/

theorem bitAt_xor {w : Nat} (a b : BitVec w) (p : Nat) : bitAt (a ^^^ b) p = (bitAt a p ^^ bitAt b p) :=
  BitVec.getMsbD_xor

theorem callXor_eq_ok {w : Nat} (a b : BitVec w) : callXor ⟨w, a⟩ ⟨w, b⟩ = .ok ⟨w, a ^^^ b⟩ := by
  simp [callXor]

/-- Settles O39: on equal widths the call is the bitwise operation, whose laws are those of `BitVec`. -/
theorem xorIsBitwiseOnEqualWidths : Obligations.XorIsBitwiseOnEqualWidths := by
  refine ⟨fun a b h => if_neg h, fun w a b => ⟨a ^^^ b, callXor_eq_ok a b, fun p _ _ => bitAt_xor a b p⟩,
    fun w a => ⟨?_, ?_⟩, fun w a b c => ⟨?_, ?_⟩, callXor_eq_ok _ _⟩
  · rw [callXor_eq_ok, BitVec.xor_self]; rfl
  · rw [callXor_eq_ok, show a ^^^ 0 = a from BitVec.xor_zero]
  · rw [callXor_eq_ok, callXor_eq_ok, BitVec.xor_comm]
  · calc callXor ⟨w, a⟩ ⟨w, b⟩ >>= (callXor · ⟨w, c⟩)
      _ = .ok ⟨w, a ^^^ b ^^^ c⟩ := by rw [callXor_eq_ok]; exact callXor_eq_ok _ c
      _ = .ok ⟨w, a ^^^ (b ^^^ c)⟩ := by rw [BitVec.xor_assoc]
      _ = callXor ⟨w, b⟩ ⟨w, c⟩ >>= (callXor ⟨w, a⟩ ·) := by rw [callXor_eq_ok]; exact (callXor_eq_ok a _).symm

/-! ### `permute` -/

/-- Settles O40: position i + 1 of the output reads entry i of the table. -/
theorem permuteCopiesTheTablesPositions : Obligations.PermuteCopiesTheTablesPositions := by
  intro w n s T i h
  have entry : T.getD (i + 1 - 1) 0 = T[i] := by simp [Vector.getD, h]
  rw [bitAt_permute s T i.succ_pos h, entry]

section
variable {n : Nat} {T : Vector Nat n}

theorem entries_pos_iff : (T.toList.all fun p => 1 ≤ p) = true ↔ 0 ∉ T.toList := by
  simp only [List.all_eq_true, decide_eq_true_eq]
  exact ⟨fun h h0 => absurd (h 0 h0) (by decide), fun h0 p hp => Nat.pos_of_ne_zero fun hz => h0 (hz ▸ hp)⟩

/-- A straight permutation fits exactly the inputs of its own length. -/
theorem fitsTable_straight (h : isStraight T = true) (width : Nat) : fitsTable width T = true ↔ width = n := by
  rw [fitsTable, if_pos h, entries_pos_iff.mpr (zero_notMem_of_isStraight h), Bool.and_true, beq_iff_eq]

/-- Any other table of positions fits exactly the inputs that reach each of its entries. -/
theorem fitsTable_other (h : ¬ isStraight T = true) (h0 : 0 ∉ T.toList) (width : Nat) :
    fitsTable width T = true ↔ ∀ p ∈ T.toList, p ≤ width := by
  rw [fitsTable, if_neg h, entries_pos_iff.mpr h0, Bool.and_true, List.all_eq_true]
  simp only [decide_eq_true_eq]

theorem fitsTable_zero_mem (h : 0 ∈ T.toList) (width : Nat) : ¬ fitsTable width T = true := by
  rw [fitsTable, Bool.and_eq_true, entries_pos_iff]
  exact fun ⟨_, h0⟩ => h0 h

theorem callPermute_ok_iff_of_straight (h : isStraight T = true) (s : BitString) :
    s.width = n ↔ ∃ t, callPermute s T = .ok t :=
  ((callPermute_ok_iff s T).trans (fitsTable_straight h s.width)).symm

theorem callPermute_ok_iff_of_other (h : ¬ isStraight T = true) (h0 : 0 ∉ T.toList) (s : BitString) :
    (∀ p ∈ T.toList, p ≤ s.width) ↔ ∃ t, callPermute s T = .ok t :=
  ((callPermute_ok_iff s T).trans (fitsTable_other h h0 s.width)).symm

/-- An expansion or compression table asks for its greatest entry m (41_primitives R101, R102). -/
theorem callPermute_ok_iff_of_greatest {m : Nat}
    (h : ¬ isStraight T = true ∧ 0 ∉ T.toList ∧ m ∈ T.toList ∧ ∀ p ∈ T.toList, p ≤ m) (s : BitString) :
    m ≤ s.width ↔ ∃ t, callPermute s T = .ok t :=
  have ⟨hother, h0, hm, hle⟩ := h
  Iff.trans ⟨fun hw p hp => (hle p hp).trans hw, fun hw => hw m hm⟩ (callPermute_ok_iff_of_other hother h0 s)

/-- A call of `permute` gives the permuted string, or fails with `InvalidLength`. -/
theorem callPermute_cases (s : BitString) (T : Vector Nat n) :
    callPermute s T = .ok ⟨n, permute s.bits T⟩ ∨ callPermute s T = .error .invalidLength := by
  unfold callPermute
  split
  · exact .inl rfl
  · exact .inr rfl

end

/-- Settles O41: a table is a straight permutation, another table of positions, or holds an entry 0; the block's tables are of
the first two kinds. -/
theorem permuteChecksItsPrecondition : Obligations.PermuteChecksItsPrecondition := by
  refine ⟨fun s n T => ⟨fun h => ?_, fun h h0 => ?_, fun h0 => if_neg (fitsTable_zero_mem h0 s.width), fun t h => ?_,
    fun e h => ?_⟩, fun s => ?_⟩
  · exact callPermute_ok_iff_of_straight ((isStraight_iff T).mpr h) s
  · exact callPermute_ok_iff_of_other (mt (isStraight_iff T).mp h) h0 s
  · rcases callPermute_cases s T with hok | herr
    · exact (Except.ok.inj (hok.symm.trans h)).symm
    · exact nomatch herr.symm.trans h
  · rcases callPermute_cases s T with hok | herr
    · exact nomatch hok.symm.trans h
    · exact (Except.error.inj (herr.symm.trans h)).symm
  · exact ⟨callPermute_ok_iff_of_straight (by decide +kernel) s, callPermute_ok_iff_of_straight (by decide +kernel) s,
      callPermute_ok_iff_of_straight (by decide +kernel) s, callPermute_ok_iff_of_greatest (by decide +kernel) s,
      callPermute_ok_iff_of_greatest (by decide +kernel) s, callPermute_ok_iff_of_greatest (by decide +kernel) s,
      callPermute_ok_iff_of_greatest (by decide +kernel) s⟩

/-! ### `rotate_left` -/

/-- Position p of the wired rotation is n positions further on, cyclically (41_primitives R103). -/
theorem bitAt_rotateBits {w n p : Nat} (s : BitVec w) (hn : n < w) (h1 : 1 ≤ p) (h2 : p ≤ w) :
    bitAt (rotateBits s n) p = bitAt s ((p - 1 + n) % w + 1) := by
  have hp : p - 1 < w := by omega
  rw [rotateBits_eq_rotateLeft s hn, bitAt, BitVec.getMsbD_rotateLeft]
  simp [bitAt, hp, Nat.add_comm]

/-- Settles O42: below the width the call is the wired rotation, and any other amount is refused. -/
theorem rotateLeftIsCyclic : Obligations.RotateLeftIsCyclic := by
  refine ⟨fun w n s hn => ⟨rotateBits s n, if_pos hn, fun p => bitAt_rotateBits s hn⟩,
    fun w n s hn => if_neg (Nat.not_lt.mpr hn), fun w s hw => ?_, by decide, by decide⟩
  rw [callRotateLeft, if_pos hw, rotateBits_zero]

/-! ### `to_hex` -/

/-- The value of a 4-bit string, from its positions. -/
theorem toNat_eq_positions (x : BitVec 4) :
    x.toNat = 8 * (bitAt x 1).toNat + 4 * (bitAt x 2).toNat + 2 * (bitAt x 3).toNat + (bitAt x 4).toNat := by
  revert x; decide

/-- Group j of four positions counts from the left, in register bits from 4(n - 1 - j) on. -/
theorem bitAt_extractLsb'_group {n j p : Nat} (b : BitVec (4 * n)) (hj : j < n) (h1 : 1 ≤ p) (h2 : p ≤ 4) :
    bitAt (b.extractLsb' (4 * (n - 1 - j)) 4) p = bitAt b (4 * j + p) := by
  have hp : p - 1 < 4 := by omega
  have hq : 4 * j + p - 1 < 4 * n := by omega
  have hr : 4 * (n - 1 - j) + (4 - 1 - (p - 1)) = 4 * n - 1 - (4 * j + p - 1) := by omega
  have hs : 4 - 1 - (p - 1) < 4 := by omega
  simp only [bitAt, BitVec.getMsbD_eq_getLsbD, hp, hq, BitVec.getLsbD_extractLsb', hr, hs, decide_true, Bool.true_and]

theorem hexValue_eq_toNat {n j : Nat} (b : BitVec (4 * n)) (hj : j < n) :
    hexValue ⟨4 * n, b⟩ j = (b.extractLsb' (4 * (n - 1 - j)) 4).toNat := by
  have group {p : Nat} := bitAt_extractLsb'_group (p := p) b hj
  rw [toNat_eq_positions, group (by decide) (by decide), group (by decide) (by decide), group (by decide) (by decide),
    group (by decide) (by decide), hexValue]

theorem callToHex_eq_ok {n : Nat} (b : BitVec (4 * n)) :
    callToHex ⟨4 * n, b⟩ = .ok ((List.range n).map fun j => hexDigit (hexValue ⟨4 * n, b⟩ j)) := by
  simp [callToHex]

/-- Settles O43: digit j is the digit of the four register bits that hold positions 4j + 1 to 4j + 4. -/
theorem toHexRendersFourPositionsEach : Obligations.ToHexRendersFourPositionsEach := by
  refine ⟨fun s h => if_neg h, fun n b => ⟨_, callToHex_eq_ok b, by simp, fun j hj => ?_⟩, by decide⟩
  rw [hexDigit_getElem? (BitVec.isLt _), ← hexValue_eq_toNat b hj]
  simp [hj]

end Sys2Proof.Machine
end

section
/-! PROOFS. The permutation and expansion tables (42_tables): what they do to a block or half, one after the other. -/

namespace Sys2Proof.Machine

/-- Settles O46: entry by entry, each of the two tables lists where the other one sent a position (`permute_permute_eq_self`). -/
theorem finalPermutationInvertsInitial : Obligations.FinalPermutationInvertsInitial :=
  fun b => ⟨permute_fp_ip b, permute_ip_fp b⟩

end Sys2Proof.Machine
end

section
/-! PROOFS. The key schedule (43_key_schedule): the cumulative rotation of the key halves, the positions of the master key
that PC1 leaves out, and the keys whose halves no rotation changes. -/

namespace Sys2Proof.Machine

/-! ### Cumulative rotation -/

/-- The sum of the first n entries of SHIFTS: how far n rounds rotate a key half (43_key_schedule R141). -/
def shiftTotal (n : Nat) : Nat := (Tables.SHIFTS.toList.take n).sum

theorem shiftTotal_succ (n : Nat) : shiftTotal (n + 1) = shiftTotal n + shiftAmount n := by
  have amount : shiftAmount n = Tables.SHIFTS.toList[n]?.toList.sum := by
    by_cases hn : n < 16 <;> simp [shiftAmount, Vector.getD, hn]
  rw [amount, shiftTotal, shiftTotal, List.take_add_one, List.sum_append]

/-- The list of R141: no round, and then every round's total. -/
theorem shiftTotals_eq :
    [0, 1, 2, 4, 6, 8, 10, 12, 14, 15, 17, 19, 21, 23, 25, 27, 28] = (List.range 17).map shiftTotal := by decide

theorem rotateHalves_eq_rotateLeft {n : Nat} (hn : n < 28) (cd : KeyHalf × KeyHalf) :
    rotateHalves n cd = (cd.1.rotateLeft n, cd.2.rotateLeft n) := by
  rw [rotateHalves, rotateBits_eq_rotateLeft _ hn, rotateBits_eq_rotateLeft _ hn]

/-- The rotations of the rounds add up. -/
theorem keyHalves_eq_rotateLeft (master : Block) (n : Nat) :
    keyHalves master n =
      ((keyHalves master 0).1.rotateLeft (shiftTotal n), (keyHalves master 0).2.rotateLeft (shiftTotal n)) := by
  induction n with
  | zero => exact (Prod.ext (rotateLeft_zero _) (rotateLeft_zero _)).symm
  | succ n ih =>
    rw [keyHalves_succ, rotateHalves_eq_rotateLeft (shiftAmount_lt n), ih, rotateLeft_rotateLeft, rotateLeft_rotateLeft,
      shiftTotal_succ]

/-- All sixteen rounds rotate by the 28 positions of a half. -/
theorem keyHalves_sixteen (master : Block) : keyHalves master 16 = keyHalves master 0 := by
  have whole : shiftTotal 16 = 28 := by decide
  rw [keyHalves_eq_rotateLeft, whole, rotateLeft_width, rotateLeft_width]

/-- Settles O48: the rotations add up (`keyHalves_eq_rotateLeft`), the listed totals are the sums, and the last is the width
of a half. -/
theorem keyHalvesRotateCumulatively : Obligations.KeyHalvesRotateCumulatively := by
  intro master n total h
  obtain rfl : shiftTotal n = total := by
    rw [shiftTotals_eq, List.getElem?_map, Option.map_eq_some_iff] at h
    obtain ⟨m, hm, rfl⟩ := h
    obtain ⟨-, rfl⟩ := List.getElem?_eq_some_iff.mp hm
    rw [List.getElem_range]
  exact ⟨rfl, congrArg Prod.fst (keyHalves_eq_rotateLeft master n), congrArg Prod.snd (keyHalves_eq_rotateLeft master n),
    keyHalves_sixteen master⟩

/-! ### The parity positions -/

theorem bitAt_and {w : Nat} (a b : BitVec w) (p : Nat) : bitAt (a &&& b) p = (bitAt a p && bitAt b p) :=
  BitVec.getMsbD_and

/-- A mask that holds every position a table selects changes nothing of what the table gives. -/
theorem permute_and_mask {w n : Nat} {mask : BitVec w} {T : Vector Nat n}
    (h : ∀ i : Fin n, bitAt mask (T.getD i.val 0) = true) (s : BitVec w) : permute (s &&& mask) T = permute s T := by
  refine eq_of_bitAt_eq fun p h1 h2 => ?_
  rw [bitAt_permute _ _ h1 h2, bitAt_permute _ _ h1 h2, bitAt_and, h ⟨p - 1, by omega⟩, Bool.and_true]

/-- PC1 selects none of the positions 8, 16, ..., 64 (42_tables R125). -/
theorem permute_pc1_and_mask (k : Block) : permute (k &&& 0xFEFEFEFEFEFEFEFE) Tables.PC1 = permute k Tables.PC1 :=
  permute_and_mask (by decide +kernel) k

/-- Settles O49: the round keys depend on what PC1 keeps of the key (`roundKeys_congr`), and it keeps no parity position. -/
theorem parityPositionsDoNotMatter : Obligations.ParityPositionsDoNotMatter := fun k k' h =>
  roundKeys_congr <| calc
    permute k Tables.PC1 = permute (k &&& 0xFEFEFEFEFEFEFEFE) Tables.PC1 := (permute_pc1_and_mask k).symm
    _ = permute (k' &&& 0xFEFEFEFEFEFEFEFE) Tables.PC1 := by rw [h]
    _ = permute k' Tables.PC1 := permute_pc1_and_mask k'

/-! ### Constant halves -/

/-- Rounds leave constant halves where they are. -/
theorem keyHalves_of_constant {k : Block} (hc : (keyHalves k 0).1 = 0 ∨ (keyHalves k 0).1 = BitVec.allOnes 28)
    (hd : (keyHalves k 0).2 = 0 ∨ (keyHalves k 0).2 = BitVec.allOnes 28) (n : Nat) : keyHalves k n = keyHalves k 0 := by
  induction n with
  | zero => rfl
  | succ n ih =>
    rw [keyHalves_succ, ih, rotateHalves, rotateBits_constant hc (shiftAmount_lt n), rotateBits_constant hd (shiftAmount_lt n)]

/-- A key set of equal keys reads the same in both orders. -/
theorem reverseKeys_of_equal {ks : Vector RoundKey 16} (h : ∀ i j : Round, ks.get i = ks.get j) : reverseKeys ks = ks :=
  Vector.ext fun i hi => (reverseKeys_get ks ⟨i, hi⟩).trans (h _ ⟨i, hi⟩)

/-- A run with a key set of equal keys does not depend on its direction (45_feistel_engine R184). -/
theorem cipher_of_equal_roundKeys {k : Block} (h : ∀ i j : Round, (roundKeys k).get i = (roundKeys k).get j)
    (fv : VariantFamily) (v : CipherVersion) (b : Block) : cipher fv true v b k = cipher fv false v b k :=
  congrArg (feistelOut (muxF fv v) b) (reverseKeys_of_equal h)

/-- Settles O50: the halves never move (`keyHalves_of_constant`), so every round compresses the same pair, and the reversed
key set is the forward one. -/
theorem constantHalvesGiveEqualRoundKeys : Obligations.ConstantHalvesGiveEqualRoundKeys := by
  intro k hc hd
  have equal : ∀ i j : Round, (roundKeys k).get i = (roundKeys k).get j := fun i j => by
    simp only [roundKeys_get, roundKey, keyHalves_of_constant hc hd (_ + 1)]
  exact ⟨equal, cipher_of_equal_roundKeys equal⟩

end Sys2Proof.Machine
end

section
/-! PROOFS. The round function (44_round_function): the expansion and its reference inverse, the substitution lane by lane,
and the FEVAL command, which writes the round function of its operands. -/

namespace Sys2Proof.Machine

/-! ### The expansion -/

/-- Group j of E is input group j between its two neighbours, cyclically (44_round_function R161; 42_tables R123). -/
theorem expansion_entry {j k : Nat} (h1 : 1 ≤ j) (h2 : j ≤ 8) (h3 : k ≤ 5) :
    Tables.E.getD (6 * j - 5 + k - 1) 0 =
      if 4 * j - 4 + k = 0 then 32 else if 4 * j - 4 + k = 33 then 1 else 4 * j - 4 + k := by
  interval_cases j <;> interval_cases k <;> rfl

/-- Settles O44: every output position reads its entry of E (`bitAt_permute`), which is the neighbour the rule names. -/
theorem expansionCopiesNeighbours : Obligations.ExpansionCopiesNeighbours := by
  refine ⟨fun r j k h1 h2 h3 => ?_, by decide +kernel, by decide +kernel⟩
  rw [bitAt_permute r Tables.E (by omega) (by omega), expansion_entry h1 h2 h3]

/-- Settles O47: E_INV reads, for every position, an output position of E that copies it (`permute_permute_eq_self`). -/
theorem referenceInverseUndoesExpansion : Obligations.ReferenceInverseUndoesExpansion :=
  permute_permute_eq_self Tables.E Tables.E_INV (by decide +kernel)

/-! ### The substitution -/

/-- A run of m register bits keeps the order of the positions it takes. -/
theorem bitAt_extractLsb' {w k m p : Nat} (x : BitVec w) (hk : k + m ≤ w) (h1 : 1 ≤ p) (h2 : p ≤ m) :
    bitAt (x.extractLsb' k m) p = bitAt x (w - (k + m) + p) := by
  have inside : p - 1 < m ∧ m - 1 - (p - 1) < m ∧ w - (k + m) + p - 1 < w := by omega
  have register : k + (m - 1 - (p - 1)) = w - 1 - (w - (k + m) + p - 1) := by omega
  simp [bitAt, BitVec.getMsbD_eq_getLsbD, inside, register]

/-- Group j + 1 holds positions 6j + 1 to 6j + 6 (44_round_function R162). -/
theorem bitAt_sboxGroup (x : RoundKey) (j : Fin 8) {p : Nat} (h1 : 1 ≤ p) (h2 : p ≤ 6) :
    bitAt (sboxGroup x j) p = bitAt x (6 * j.val + p) := by
  have start : 48 - (42 - 6 * j.val + 6) + p = 6 * j.val + p := by omega
  rw [sboxGroup, bitAt_extractLsb' x (by omega) h1 h2, start]

theorem sboxRow_toNat (g : BitVec 6) : (sboxRow g).toNat = 2 * (bitAt g 1).toNat + (bitAt g 6).toNat := by
  revert g; decide

theorem sboxCol_toNat (g : BitVec 6) :
    (sboxCol g).toNat = 8 * (bitAt g 2).toNat + 4 * (bitAt g 3).toNat + 2 * (bitAt g 4).toNat + (bitAt g 5).toNat := by
  revert g; decide

/-- `high_nibble` with the place of the four register bits as one number. -/
theorem extractLsb'_append_nibble {w k : Nat} (a : BitVec w) (b : BitVec 4) (h : 4 ≤ k) :
    (a ++ b).extractLsb' k 4 = a.extractLsb' (k - 4) 4 := by
  rw [← high_nibble a b (k - 4), Nat.add_sub_cancel' h]

/-- Output positions 4j + 1 to 4j + 4 are lane j alone. -/
theorem sbox_extractLsb' (x : RoundKey) (j : Fin 8) :
    (sbox x).extractLsb' (28 - 4 * j.val) 4 = sboxLane j (sboxGroup x j) := by
  fin_cases j <;> simp [sbox, extractLsb'_append_nibble, low_nibble]

/-- Settles O45: the lane stands at its four positions, and its row and column are read off the positions of its group. -/
theorem substitutionUsesRowAndColumn : Obligations.SubstitutionUsesRowAndColumn := by
  intro x j row col hrow hcol
  have row_eq : (sboxRow (sboxGroup x j)).toFin = row := Fin.ext <| by
    rw [hrow]
    simpa [bitAt_sboxGroup] using sboxRow_toNat (sboxGroup x j)
  have col_eq : (sboxCol (sboxGroup x j)).toFin = col := Fin.ext <| by
    rw [hcol]
    simpa [bitAt_sboxGroup] using sboxCol_toNat (sboxGroup x j)
  rw [sbox_extractLsb', sboxLane, row_eq, col_eq]

/-! ### The FEVAL command -/

theorem firstBadOperand_feval_ready {s : State} (hhalf : s.half.len = 32) (hrkey : s.rkey.len = 48) :
    firstBadOperand .feval s = none := by
  rw [firstBadOperand_feval, if_pos hhalf, if_pos hrkey]

/-- Settles O14: the accepted FEVAL writes f of its operands at once, and the version selects the datapath. -/
theorem fevalWritesTheRoundFunction : Obligations.FevalWritesTheRoundFunction := by
  intro s ver v hp hhalf hrkey hver
  refine (exec_command_accepted (op := .feval) hp (firstBadOperand_feval_ready hhalf hrkey) (acceptVersion_some hver)).trans ?_
  cases v with
  | canonical => rfl
  | altered a => rfl

end Sys2Proof.Machine
end

section
/-! PROOFS. The Feistel engine (45_feistel_engine): a run with the keys reversed walks the rounds of the first run backwards,
and version 1 under the reference F_VARIANT is canonical DES with round keys of zero. -/

namespace Sys2Proof.Machine

/-! ### A run with the keys reversed -/

section
variable (f : Half → RoundKey → Half) (b : Block) (ks : Vector RoundKey 16)

/-- A round undoes itself under the exchange of the halves, whatever the round function (45_feistel_engine R190). -/
theorem roundPair_swap_roundPair (k : RoundKey) (lr : Half × Half) :
    roundPair f k (roundPair f k lr).swap = lr.swap := by
  simp [roundPair, Prod.swap]

theorem reverseKeys_getD {m n : Nat} (h : m + n = 15) : (reverseKeys ks).getD n 0 = ks.getD m 0 := by
  have hn : n < 16 := by omega
  have rev : (Fin.rev ⟨n, hn⟩ : Round).val = m := by simp only [Fin.val_rev]; omega
  rw [← get_eq_getD (reverseKeys ks) ⟨n, hn⟩ 0, reverseKeys_get, get_eq_getD _ _ 0, rev]

/-- The initial permutation takes the terminal combination apart again: what the first run ends with, exchanged, is what the
second one starts from (45_feistel_engine R182). -/
theorem feistelHalves_feistelOut_zero (ks' : Vector RoundKey 16) :
    feistelHalves f (feistelOut f b ks) ks' 0 = (feistelHalves f b ks 16).swap := by
  rw [feistelHalves, feistelOut, terminal, permute_ip_fp, hi32_append, lo32_append, Prod.swap]

/-- After n rounds the second run holds, exchanged, what the first one held n rounds before its end. -/
theorem feistelHalves_feistelOut_reverseKeys {m n : Nat} (h : m + n = 16) :
    feistelHalves f (feistelOut f b ks) (reverseKeys ks) n = (feistelHalves f b ks m).swap := by
  induction n generalizing m with
  | zero =>
    obtain rfl : m = 16 := h
    exact feistelHalves_feistelOut_zero f b ks (reverseKeys ks)
  | succ n ih =>
    have before : m + 1 + n = 16 := by omega
    have key : (reverseKeys ks).getD n 0 = ks.getD m 0 := reverseKeys_getD ks (by omega)
    rw [feistelHalves_succ, ih before, key, feistelHalves_succ, roundPair_swap_roundPair]

/-- Entry i of the second run's trace, by what the first run held. -/
theorem feistelTrace_feistelOut_reverseKeys {m : Nat} {i : Round} (h : m + i.val = 15) :
    (feistelTrace f (feistelOut f b ks) (reverseKeys ks)).get i =
      (feistelHalves f b ks m).2 ++ (feistelHalves f b ks m).1 := by
  rw [feistelTrace_get, feistelHalves_feistelOut_reverseKeys f b ks (m := m) (by omega), Prod.fst_swap, Prod.snd_swap]

end

/-- Settles O51: the second run ends with the halves the first one began with, exchanged
(`feistelHalves_feistelOut_reverseKeys`), and the terminal combination exchanges them back. -/
theorem feistelRoundTrip : Obligations.FeistelRoundTrip := by
  intro f ks b
  have ends : feistelHalves f (feistelOut f b ks) (reverseKeys ks) 16 = (feistelHalves f b ks 0).swap :=
    feistelHalves_feistelOut_reverseKeys f b ks (by omega)
  rw [feistelOut, ends, terminal, Prod.fst_swap, Prod.snd_swap, feistelHalves, hi32_append_lo32, permute_fp_ip]

/-- Settles O53: both parts are entries of the second run's trace (`feistelTrace_feistelOut_reverseKeys`). -/
theorem decryptTraceMirrorsEncryptTrace : Obligations.DecryptTraceMirrorsEncryptTrace := by
  refine fun fv v p k => ⟨fun i j hij => ?_, ?_⟩
  · have entry : (cipherTrace fv false v p k).get j =
        (feistelHalves (muxF fv v) p (roundKeys k) (j.val + 1)).1 ++
          (feistelHalves (muxF fv v) p (roundKeys k) (j.val + 1)).2 := feistelTrace_get _ _ _ j
    rw [entry, lo32_append, hi32_append]
    exact feistelTrace_feistelOut_reverseKeys _ _ _ (by omega)
  · exact feistelTrace_feistelOut_reverseKeys _ _ _ (m := 0) rfl

/-! ### The functional calls -/

/-- `encrypt` and `decrypt` on operands of the right widths and a tag of the enumeration (45_feistel_engine R183, R184). -/
theorem callCipher_eq_ok (fv : VariantFamily) (decrypting : Bool) (b k : Block) {tag : Nat} {v : CipherVersion}
    (h : versionOfTag tag = some v) :
    callCipher fv decrypting ⟨64, b⟩ ⟨64, k⟩ tag = .ok (cipher fv decrypting v b k, cipherTrace fv decrypting v b k) := by
  simp [callCipher, callGenerateRoundKeys, h]

theorem versionOfTag_some {tag : Nat} (h : tag ≤ 3) : ∃ v, versionOfTag tag = some v := by
  interval_cases tag <;> exact ⟨_, rfl⟩

theorem cipher_decrypt_encrypt (fv : VariantFamily) (v : CipherVersion) (p k : Block) :
    cipher fv true v (cipher fv false v p k) k = p :=
  feistelRoundTrip (muxF fv v) (roundKeys k) p

/-- Settles O52: neither call fails, and decrypting is the run with the keys reversed (`feistelRoundTrip`). -/
theorem decryptRecoversThePlaintext : Obligations.DecryptRecoversThePlaintext := by
  intro fv p k tag htag
  obtain ⟨v, hv⟩ := versionOfTag_some htag
  have decrypted := callCipher_eq_ok fv true (cipher fv false v p k) k hv
  rw [cipher_decrypt_encrypt] at decrypted
  exact ⟨_, _, _, callCipher_eq_ok fv false p k hv, decrypted⟩

/-! ### Version 1 under the reference F_VARIANT -/

/-- The halves of the zero key are zero and stay it (`keyHalves_of_constant`). -/
theorem roundKey_zero (i : Nat) : roundKey 0 i = 0 := by
  have halves : keyHalves 0 0 = (0, 0) := by decide +kernel
  have compressed : compressKey 0 0 = 0 := by decide +kernel
  rw [roundKey, keyHalves_of_constant (.inl (by rw [halves])) (.inl (by rw [halves])), halves, compressed]

theorem roundKeys_zero_getD (n : Nat) : (roundKeys 0).getD n 0 = 0 := by
  by_cases hn : n < 16
  · rw [← get_eq_getD (roundKeys 0) ⟨n, hn⟩ 0, roundKeys_get, roundKey_zero]
  · simp [Vector.getD, hn]

/-- Without the key mixing, version 1 is canonical f under a round key of zero (44_round_function R160, R165). -/
theorem variantRef_v1 (r : Half) (k : RoundKey) : variantRef .v1 r k = canonicalF r 0 := by
  simp [variantRef, canonicalF]

/-- Round by round, version 1 under any key holds what canonical DES under the zero key holds. -/
theorem feistelHalves_variantRef_v1 (p k : Block) (n : Nat) :
    feistelHalves (muxF variantRef (.altered .v1)) p (keysInOrder false k) n =
      feistelHalves (muxF variantRef .canonical) p (keysInOrder false 0) n := by
  refine feistelHalves_congr _ _ p _ _ (fun i r => ?_) n
  have zero : (keysInOrder false 0).getD i 0 = 0 := roundKeys_zero_getD i
  rw [zero]
  exact variantRef_v1 r ((keysInOrder false k).getD i 0)

theorem cipher_variantRef_v1 (p k : Block) :
    cipher variantRef false (.altered .v1) p k = cipher variantRef false .canonical p 0 := by
  simp only [cipher, feistelOut, feistelHalves_variantRef_v1]

theorem cipherTrace_variantRef_v1 (p k : Block) :
    cipherTrace variantRef false (.altered .v1) p k = cipherTrace variantRef false .canonical p 0 := by
  simp only [cipherTrace, feistelTrace, feistelHalves_variantRef_v1]

/-- Settles O54: both results are made of the halves of the rounds, and these agree (`feistelHalves_variantRef_v1`). -/
theorem referenceVersionOneIgnoresTheKey : Obligations.ReferenceVersionOneIgnoresTheKey := by
  refine fun p k => ⟨cipher_variantRef_v1 p k, cipherTrace_variantRef_v1 p k, ?_⟩
  rw [callEncrypt, callEncrypt, callCipher_eq_ok (v := .altered .v1) _ _ p k rfl,
    callCipher_eq_ok (v := .canonical) _ _ p 0 rfl, cipher_variantRef_v1, cipherTrace_variantRef_v1]

end Sys2Proof.Machine
end

section
/-! PROOFS. The host accesses (46_host_access): an access is a cycle without access, with the register written that it
writes and the ports driven that it reads. -/

namespace Sys2Proof.Machine

/-- Settles O10: a reset edge and every instruction answer a next state (`step_eq_stepState`). -/
theorem stepAlwaysAnswersANextState : Obligations.StepAlwaysAnswersANextState := fun s =>
  ⟨stepState s, step_eq_stepState s⟩

/-- Settles O25: a cycle without access is the sequencer step, which does nothing while idle. -/
theorem idleBlockHoldsItsState : Obligations.IdleBlockHoldsItsState := by
  refine fun s index => ⟨fun hp => ?_, (exec_nop index s).trans (exec_nop 0 s).symm⟩
  rw [exec_nop, sequencerStep_idle hp]

/-! ### Writes -/

theorem floatPorts_storeOperand (reg : Reg) (data : BitVec 64) (len : BitVec 8) (before after : State) :
    floatPorts before (storeOperand reg data len after) = storeOperand reg data len (floatPorts before after) := by
  cases reg <;> rfl

/-- A WR of any register but CMD is a cycle without access and the store (46_host_access R200). -/
theorem exec_wr {reg : Reg} (h : reg ≠ .cmd) (data : BitVec 64) (len : BitVec 8) (s : State) :
    exec (.wr reg data len) s = .next (storeOperand reg data len (floatPorts s (sequencerStep s))) := by
  have edge : edgeState (.wr reg data len) s = storeOperand reg data len (sequencerStep s) :=
    writeReg_eq_storeOperand h data len s
  rw [exec_eq, edge, ← floatPorts_storeOperand]; rfl

/-- Settles O20: each WR is the store to the register it names (`exec_wr`); HALF and RKEY take the low bits of the bus. -/
theorem writeStoresDataAndLength : Obligations.WriteStoresDataAndLength := by
  intro s data len
  rw [← BitVec.setWidth_eq_extractLsb' (by decide), ← BitVec.setWidth_eq_extractLsb' (by decide)]
  exact ⟨_, exec_nop 0 s, exec_wr (by decide) data len s, exec_wr (by decide) data len s, exec_wr (by decide) data len s,
    exec_wr (by decide) data len s⟩

/-! ### Reads -/

/-- A RD is a cycle without access, with the register's value before the edge on the read ports (46_host_access R201). -/
theorem exec_rd (reg : Reg) (s : State) :
    exec (.rd reg) s = .next { floatPorts s (sequencerStep s) with
      hostRdata := readData reg s, hostRlen := readLen reg s } := by
  rw [exec_eq]; rfl

/-- Settles O24: the edge is the WR's and the ports are the RD's, in each of the three cycles. -/
theorem writeAndReadReturnsTheOldValue : Obligations.WriteAndReadReturnsTheOldValue := by
  intro s reg data len
  refine ⟨_, _, exec_eq (.wr reg data len) s, exec_rd reg s, ?_⟩
  rw [exec_eq]; rfl

/-- Settles O23: each register drives some string of its own width, zero-extended (`exec_rd`). -/
theorem unreliableReadStillCompletes : Obligations.UnreliableReadStillCompletes := fun s i =>
  ⟨_, exec_nop 0 s, ⟨_, exec_rd .dout s⟩, ⟨_, exec_rd .fout s⟩, ⟨_, exec_rd (.rk i) s⟩, ⟨_, exec_rd (.trace i) s⟩⟩

/-- `result(X)` of a register that holds a value the running command does not write (46_host_access R201). -/
theorem resultValue_held {w : Nat} {reg : Reg} {x : BitVec w} {s : State} (h : runningWrites reg s = false) :
    resultValue reg (some x) s = x :=
  resultValue_notRunning h

/-- Settles O22: a RD drives `readData` (`exec_rd`), which for a result register is the value it holds. -/
theorem readDrivesTheHeldValue : Obligations.ReadDrivesTheHeldValue := by
  refine fun s => ⟨_, exec_nop 0 s, exec_rd .cmd s, exec_rd .status s, exec_rd .din s, exec_rd .key s, exec_rd .half s,
    exec_rd .rkey s, fun x hx => ?fout, fun x hx quiet => ?dout, fun i x hx idle => ?rk, fun i x hx quiet => ?trace,
    fun index => exec_rd (.unmapped index) s⟩
  case fout =>
    have notWritten : runningWrites .fout s = false := by simp [runningWrites]
    rw [exec_rd, readData, hx, resultValue_held notWritten, readLen]
  case dout =>
    have notWritten : runningWrites .dout s = false := runningWrites_false_of_not_rk nofun quiet
    rw [exec_rd, readData, hx, resultValue_held notWritten, readLen]
  case rk =>
    have notWritten : runningWrites (.rk i) s = false := by simp [runningWrites, idle]
    rw [exec_rd, readData, hx, resultValue_held notWritten, readLen]
  case trace =>
    have notWritten : runningWrites (.trace i) s = false := runningWrites_false_of_not_rk nofun quiet
    rw [exec_rd, readData, hx, resultValue_held notWritten, readLen]

end Sys2Proof.Machine
end

section
/-! PROOFS. The exceptions (60_exceptions): what a failing CMD write leaves, which words are illegal, and the error that a
command records against the error with which the functional call fails. -/

namespace Sys2Proof.Machine

/-! ### The failure entry -/

/-- A host write to CMD on an idle block is the issue edge of its low half-word (30_encoding R61; 40_command_model R81). -/
theorem exec_wr_cmd_idle (data : BitVec 64) (len : BitVec 8) {s : State} (hp : s.phase = .idle) :
    exec (.wr .cmd data len) s = .next (floatPorts s (issue (data.setWidth 16) s)) := by
  have edge : edgeState (.wr .cmd data len) s = issue (data.setWidth 16) s := writeCmd_idle hp _
  rw [exec_eq, edge]; rfl

/-- A read in the cycle of a CMD write adds CMD from before the edge on the read ports (46_host_access R204). -/
theorem exec_wrRd_cmd {data : BitVec 64} {len : BitVec 8} {s t : State} (h : exec (.wr .cmd data len) s = .next t) :
    exec (.wrRd .cmd data len) s = .next { t with hostRdata := s.cmd.setWidth 64, hostRlen := 16 } := by
  rw [exec_eq_next_iff.mp h, exec_eq]; rfl

theorem exec_wr_cmd_failed {data : BitVec 64} (len : BitVec 8) {e : Failure} {s : State} (hp : s.phase = .idle)
    (hfail : validate (data.setWidth 16) s = .error e) :
    exec (.wr .cmd data len) s = .next (floatPorts s (failureEntry (data.setWidth 16) e s)) := by
  rw [exec_wr_cmd_idle data len hp, issue_of_error hfail]

/-- Settles O15: the edge of a failing word is the failure entry, which leaves PHASE and sets DONE without BUSY. -/
theorem failureWritesOnlyCmdAndStatus : Obligations.FailureWritesOnlyCmdAndStatus := by
  intro s data len e hp hfail
  have failed := exec_wr_cmd_failed len hp hfail
  refine ⟨_, failed, rfl, hp, ?_, ?_, exec_wrRd_cmd failed⟩
  · exact statusDone_failedStatus e.err e.arg
  · exact statusBusy_failedStatus e.err e.arg

/-! ### The error that a command records -/

/-- STATUS.ERR of an outcome: 0 for a result, the error's own code for a failure (60_exceptions R220). -/
def errOf {ε α : Type} (code : ε → ErrCode) : Except ε α → ErrCode
  | .ok _ => .none
  | .error e => code e

/-- A started command clears STATUS.ERR (40_command_model R81; 44_round_function R168). -/
theorem statusErr_startCommand (a : Accepted) (s : State) : statusErr (startCommand a s).status = 0 := by
  have running : statusErr startedStatus = 0 := by decide
  have succeeded : statusErr succeededStatus = 0 := by decide
  cases a with
  | enc v | dec v | keygen => exact running
  | feval v => exact succeeded

/-- The issue edge records the outcome of validation in STATUS.ERR (40_command_model R81; 60_exceptions R226). -/
theorem statusErr_issue (word : BitVec 16) (s : State) :
    statusErr (issue word s).status = (errOf Failure.err (validate word s)).code := by
  rcases issue_cases word s with ⟨e, he, h⟩ | ⟨a, ha, h⟩
  · rw [h, he]
    exact statusErr_failedStatus e.err e.arg
  · rw [h, ha]
    exact statusErr_startCommand a _

/-- The error of the version check: a tag outside the enumeration has no version (30_encoding R63). -/
def versionErr (tag : Nat) : ErrCode := if (versionOfTag tag).isSome then .none else .unknownVersion

/-- KEYGEN accepts every VER (60_exceptions R223). -/
theorem errOf_acceptVersion (op : CmdOp) (ver : BitVec 4) :
    errOf Failure.err (acceptVersion op ver) = if op = .keygen then .none else versionErr ver.toNat := by
  unfold versionErr
  cases op with
  | keygen => rfl
  | enc | dec | feval => cases h : versionOfTag ver.toNat <;> simp [acceptVersion, withVersion, errOf, h]

/-- A command records a wrong LEN before it looks at VER (40_command_model R83; 60_exceptions R227). -/
theorem errOf_validate_commandWord (op : CmdOp) (ver : BitVec 4) (s : State) :
    errOf Failure.err (validate (commandWord op ver) s) =
      if firstBadOperand op s = none then if op = .keygen then .none else versionErr ver.toNat else .invalidLength := by
  rw [validate_commandWord]
  cases firstBadOperand op s with
  | some o => rfl
  | none => exact errOf_acceptVersion op ver

/-! ### Illegal words -/

/-- An illegal word fails before any operand is looked at (60_exceptions R222). -/
theorem validate_of_illegal {word : BitVec 16} (h : ∃ r, decodeCommand word = .error r) (s : State) :
    validate word s = .error ⟨.illegalCommand, .cmd⟩ := by
  obtain ⟨r, hr⟩ := h
  simp [validate, hr]

theorem exists_commandWord_of_legal {word : BitVec 16} (h : ¬ ∃ r, decodeCommand word = .error r) :
    ∃ op ver, word = commandWord op ver := by
  cases hd : decodeCommand word with
  | error r => exact absurd ⟨r, hd⟩ h
  | ok command => exact ⟨command.1, command.2, eq_commandWord_of_decodeCommand hd⟩

/-- No command records ILLEGAL_COMMAND (60_exceptions R222). -/
theorem statusErr_issue_commandWord_ne (op : CmdOp) (ver : BitVec 4) (s : State) :
    statusErr (issue (commandWord op ver) s).status ≠ 4 := by
  rw [statusErr_issue, errOf_validate_commandWord, versionErr]
  split_ifs <;> decide

/-- The word of a CMD write is illegal exactly by bits [15:8] or bits [3:0] of the data (30_encoding R64, R66). -/
theorem illegal_iff_of_data (data : BitVec 64) :
    (data.extractLsb' 8 8 ≠ 0 ∨ data.extractLsb' 0 4 = 0 ∨ 5 ≤ (data.extractLsb' 0 4).toNat) ↔
      ∃ r, decodeCommand (data.setWidth 16) = .error r := by
  have rsv : wordRsv (data.setWidth 16) = data.extractLsb' 8 8 := BitVec.extractLsb'_setWidth_of_le (by decide)
  have op : wordOp (data.setWidth 16) = data.extractLsb' 0 4 := BitVec.extractLsb'_setWidth_of_le (by decide)
  rw [decodeCommand_error_iff, rsv, op]

/-- Settles O17: an illegal word fails validation whatever the operands hold, and any other word is a command's. -/
theorem illegalWordsFailAsIllegalCommand : Obligations.IllegalWordsFailAsIllegalCommand := by
  intro s data len hp
  rw [illegal_iff_of_data]
  refine ⟨fun illegal => ?_, fun legal => ?_⟩
  · have failed := exec_wr_cmd_failed len hp (validate_of_illegal illegal s)
    exact ⟨_, failed, rfl, exec_wrRd_cmd failed⟩
  · obtain ⟨op, ver, hword⟩ := exists_commandWord_of_legal legal
    have issued := exec_wr_cmd_idle data len hp
    rw [hword] at issued
    have noIllegal := statusErr_issue_commandWord_ne op ver s
    exact ⟨_, _, issued, exec_wrRd_cmd issued, noIllegal, noIllegal⟩

/-! ### The functional layer's failures -/

/-- The code that the block has for an error of the functional layer (60_exceptions R220). -/
def desErrCode : DesError → ErrCode
  | .invalidLength => .invalidLength
  | .lengthMismatch => .lengthMismatch
  | .unknownVersion => .unknownVersion

/-- The codes tell the outcomes of a call apart (60_exceptions R220). -/
theorem errOf_desErrCode_iff {α : Type} (x : Except DesError α) :
    ((errOf desErrCode x).code = 1 ↔ x = .error .invalidLength) ∧
    ((errOf desErrCode x).code = 3 ↔ x = .error .unknownVersion) ∧
    ((errOf desErrCode x).code = 0 ↔ ∃ y, x = .ok y) := by
  cases x with
  | ok y => simp [errOf, ErrCode.code]
  | error e => cases e <;> simp [errOf, desErrCode, ErrCode.code]

theorem errOf_callGenerateRoundKeys (key : BitString) :
    errOf desErrCode (callGenerateRoundKeys key) = if key.width = 64 then .none else .invalidLength := by
  unfold callGenerateRoundKeys
  split_ifs <;> rfl

/-- `encrypt` and `decrypt` check both lengths and then the version (45_feistel_engine R183, R184). -/
theorem errOf_callCipher (fv : VariantFamily) (decrypting : Bool) (text key : BitString) (tag : Nat) :
    errOf desErrCode (callCipher fv decrypting text key tag) =
      if text.width = 64 ∧ key.width = 64 then versionErr tag else .invalidLength := by
  unfold callCipher callGenerateRoundKeys versionErr
  by_cases htext : text.width = 64
  · by_cases hkey : key.width = 64
    · cases h : versionOfTag tag <;> simp [htext, hkey, errOf, desErrCode]
    · simp [htext, hkey, errOf, desErrCode]
  · simp [htext, errOf, desErrCode]

/-- `f` checks both lengths and then the version (44_round_function R163). -/
theorem errOf_callF (fv : VariantFamily) (halfBlock key : BitString) (tag : Nat) :
    errOf desErrCode (callF fv halfBlock key tag) =
      if halfBlock.width = 32 ∧ key.width = 48 then versionErr tag else .invalidLength := by
  unfold callF versionErr
  by_cases hhalf : halfBlock.width = 32
  · by_cases hkey : key.width = 48
    · cases h : versionOfTag tag <;> simp [hhalf, hkey, errOf, desErrCode]
    · simp [hhalf, hkey, errOf, desErrCode]
  · simp [hhalf, errOf, desErrCode]

/-- Below the saturation at 255, a LEN that a driver wrote tells the length of the string (46_host_access R206). -/
theorem len_eq_iff_width_eq {len : BitVec 8} {width n : Nat} (hlen : len = boundaryLen width) (hn : n < 255) :
    len = BitVec.ofNat 8 n ↔ width = n := by
  rw [hlen, boundaryLen, ← BitVec.toNat_inj, BitVec.toNat_ofNat, BitVec.toNat_ofNat]
  omega

/-- When validation and a call end in the same error, so do the command and the call (60_exceptions R231). -/
theorem exec_command_failsAs {α : Type} {x : Except DesError α} {op : CmdOp} {ver : BitVec 4} {s : State}
    (hp : s.phase = .idle) (h : errOf Failure.err (validate (commandWord op ver) s) = errOf desErrCode x) :
    ∃ t, exec (commandInstr op ver) s = .next t ∧
      (statusErr t.status = 1 ↔ x = .error .invalidLength) ∧
      (statusErr t.status = 3 ↔ x = .error .unknownVersion) ∧
      (statusErr t.status = 0 ↔ ∃ y, x = .ok y) := by
  have recorded : statusErr (floatPorts s (issue (commandWord op ver) s)).status = (errOf desErrCode x).code :=
    (statusErr_issue (commandWord op ver) s).trans (congrArg ErrCode.code h)
  refine ⟨_, exec_commandInstr_idle op ver hp, ?_⟩
  rw [recorded]
  exact errOf_desErrCode_iff x

/-- Of two operands that are checked in order, none is reported exactly when both are ready (40_command_model R83). -/
theorem firstOfTwo_eq_none_iff {p q : Prop} [Decidable p] [Decidable q] {a b : OperandName} :
    (if p then if q then none else some b else some a) = none ↔ p ∧ q := by
  split_ifs <;> simp [*]

theorem firstBadOperand_cipher_eq_none_iff {op : CmdOp} (hop : op ∈ [CmdOp.enc, CmdOp.dec]) (s : State) :
    firstBadOperand op s = none ↔ s.din.len = 64 ∧ s.key.len = 64 := by
  rw [firstBadOperand_cipher hop, firstOfTwo_eq_none_iff]

theorem firstBadOperand_keygen_eq_none_iff (s : State) : firstBadOperand .keygen s = none ↔ s.key.len = 64 := by
  rw [firstBadOperand_keygen]
  split_ifs with hkey
  · exact iff_of_true rfl hkey
  · exact iff_of_false nofun hkey

theorem firstBadOperand_feval_eq_none_iff (s : State) :
    firstBadOperand .feval s = none ↔ s.half.len = 32 ∧ s.rkey.len = 48 := by
  rw [firstBadOperand_feval, firstOfTwo_eq_none_iff]

/-- ENC and DEC record the error of `encrypt` and `decrypt` (40_command_model R83; 45_feistel_engine R183, R184). -/
theorem validate_cipher_failsAs {op : CmdOp} (hop : op ∈ [CmdOp.enc, CmdOp.dec]) (fv : VariantFamily) (decrypting : Bool)
    {text key : BitString} (ver : BitVec 4) {s : State} (hdin : s.din.len = boundaryLen text.width)
    (hkey : s.key.len = boundaryLen key.width) :
    errOf Failure.err (validate (commandWord op ver) s) =
      errOf desErrCode (callCipher fv decrypting text key ver.toNat) := by
  have din : s.din.len = 64 ↔ text.width = 64 := len_eq_iff_width_eq hdin (by decide)
  have key : s.key.len = 64 ↔ key.width = 64 := len_eq_iff_width_eq hkey (by decide)
  have usesVersion : op ≠ .keygen := by rintro rfl; simp at hop
  rw [errOf_validate_commandWord, errOf_callCipher]
  simp only [firstBadOperand_cipher_eq_none_iff hop, din, key, usesVersion, if_false]

/-- KEYGEN records the error of `generate_round_keys` (43_key_schedule R140). -/
theorem validate_keygen_failsAs {key : BitString} (ver : BitVec 4) {s : State} (hkey : s.key.len = boundaryLen key.width) :
    errOf Failure.err (validate (commandWord .keygen ver) s) = errOf desErrCode (callGenerateRoundKeys key) := by
  have key : s.key.len = 64 ↔ key.width = 64 := len_eq_iff_width_eq hkey (by decide)
  rw [errOf_validate_commandWord, errOf_callGenerateRoundKeys]
  simp only [firstBadOperand_keygen_eq_none_iff, key, if_true]

/-- FEVAL records the error of `f` (44_round_function R163). -/
theorem validate_feval_failsAs (fv : VariantFamily) {halfBlock key : BitString} (ver : BitVec 4) {s : State}
    (hhalf : s.half.len = boundaryLen halfBlock.width) (hrkey : s.rkey.len = boundaryLen key.width) :
    errOf Failure.err (validate (commandWord .feval ver) s) = errOf desErrCode (callF fv halfBlock key ver.toNat) := by
  have half : s.half.len = 32 ↔ halfBlock.width = 32 := len_eq_iff_width_eq hhalf (by decide)
  have rkey : s.rkey.len = 48 ↔ key.width = 48 := len_eq_iff_width_eq hrkey (by decide)
  rw [errOf_validate_commandWord, errOf_callF]
  simp only [firstBadOperand_feval_eq_none_iff, half, rkey, reduceCtorEq, if_false]

/-- Settles O55: validation and the functional call check the same lengths and the same version, in the same order. -/
theorem hardwareFailsAsTheFunctionsDo : Obligations.HardwareFailsAsTheFunctionsDo := by
  intro s a b ver fv hp
  refine ⟨fun hdin hkey => ⟨?_, ?_⟩, fun hkey => ?_, fun hhalf hrkey => ?_⟩
  · exact exec_command_failsAs (op := .enc) hp (validate_cipher_failsAs (by decide) fv false ver hdin hkey)
  · exact exec_command_failsAs (op := .dec) hp (validate_cipher_failsAs (by decide) fv true ver hdin hkey)
  · obtain ⟨t, run, badLength, -, noError⟩ :=
      exec_command_failsAs (op := .keygen) hp (validate_keygen_failsAs ver hkey)
    exact ⟨t, run, badLength, noError⟩
  · exact exec_command_failsAs (op := .feval) hp (validate_feval_failsAs fv ver hhalf hrkey)

end Sys2Proof.Machine
end

section
/-! PROOFS. Reset and hazards (70_reset_and_hazards): what an edge with `rst` = 1 leaves, and what a read of its cycle
returns. -/

namespace Sys2Proof.Machine

/-- What a read drives does not depend on the host's coming lines (46_host_access R201; log 1). -/
theorem read_withProgram (reg : Reg) (s : State) (lines : List HostLine) :
    readData reg (s.withProgram lines) = readData reg s ∧ readLen reg (s.withProgram lines) = readLen reg s := by
  cases reg <;> exact ⟨rfl, rfl⟩

/-- Whether or not the cycle reads, a reset edge leaves the reset state in everything but the read ports and `freeCount`
(70_reset_and_hazards R250). -/
theorem resetEdge_eq (p : HostCycle) (s : State) :
    ∃ data len, resetEdge p s =
      { resetState s with hostRdata := data, hostRlen := len, freeCount := s.freeCount + 1 } := by
  rw [resetEdge_eq_setPorts]
  exact setPorts_eq _ s (resetState s)

/-- A read of a reset cycle returns the value from before the edge (70_reset_and_hazards R250). -/
theorem resetEdge_read {p : HostCycle} (hrd : p.rd = true) (s : State) :
    (resetEdge p s).hostRdata = readData (decodeReg p.addr) s ∧
    (resetEdge p s).hostRlen = readLen (decodeReg p.addr) s := by
  simp [resetEdge, hrd]

/-- Settles O9: the registers are those of the reset state (`resetEdge_eq`), and the read is the one before the edge
(`resetEdge_read`). -/
theorem resetEdgeGivesTheResetState : Obligations.ResetEdgeGivesTheResetState := by
  intro s p rest hline hrst
  have hread : p.rd = true → (resetEdge p (s.withProgram rest)).hostRdata = readData (decodeReg p.addr) s ∧
      (resetEdge p (s.withProgram rest)).hostRlen = readLen (decodeReg p.addr) s := by
    intro hrd
    obtain ⟨sameData, sameLen⟩ := read_withProgram (decodeReg p.addr) s rest
    rw [← sameData, ← sameLen]
    exact resetEdge_read hrd _
  refine ⟨resetEdge p (s.withProgram rest), step_of_reset hline hrst, ?_⟩
  obtain ⟨data, len, left⟩ := resetEdge_eq p (s.withProgram rest)
  obtain ⟨notBusy, notDone⟩ : State.reset.busyPin = false ∧ State.reset.donePin = false := by decide
  rw [left] at hread ⊢
  exact ⟨rfl, rfl, rfl, rfl, rfl, rfl, rfl, rfl, noneHeld_replicate, noneHeld_replicate, rfl, rfl, notBusy,
    notDone, rfl, hread⟩

end Sys2Proof.Machine
end
